-- ==== Sys2Proof/Word.lean ====
section
/-! DEFINITION. The two word types of the block: buffer bytes (R8) and the 32-bit words of the register
interface and of the hash (R40, R135). All values are unsigned (R8). -/

namespace Sys2Proof

/-- A byte is 8 bits, bit 0 least significant (R8). -/
abbrev Byte := BitVec 8

/-- A register of the host's interface, a magic number, a hash (R40, R29, R34). -/
abbrev Word := BitVec 32

end Sys2Proof
end

