-- ==== Sys2Proof/Config.lean ====
section
/-! DEFINITION. The constants of R7 that are fixed, and the one parameter that no rule reads.
The offsets of R7 stand with the conditional-offset adder in Machine/Operands.lean, the hash in Machine/Hash.lean. -/

namespace Sys2Proof.Config

/-- `MAGIC_CONST` (R7, R74): buffer bytes `04 22 4D 18`. -/
def magicConst : Word := 0x184D2204

/-- `HASH_SEED` (R7): the seed of the checksum hash. -/
def hashSeed : Word := 0

/-- The two things a consumer may take a set `BLK_FLAG` to mean (R7, R152). -/
inductive BlkFlagMeaning
  | compressed
  | uncompressed
deriving DecidableEq, Repr, Inhabited

/-- `BLK_FLAG_MEANS` (R7, U1): left open by the spec, so it has no body; no rule of the block reads it
and no definition of this model does. DESIGN CHOICE, safe (log 14). -/
opaque blkFlagMeans : BlkFlagMeaning

end Sys2Proof.Config
end

