-- ==== Sys2Proof/Syntax.lean ====
section
/-! DEFINITION. The instructions, one constructor per row of the opcode table, and `Code`, the raw form in
which each arrives: the spec has four encoding spaces (30_encoding.md: state codes R84, register writes and
reads R85, header bytes R70 to R73) and the reset input, which has no encoding. -/

namespace Sys2Proof

/-- The fields of the FLG byte that either header format leaves free (R75, R89): every bit but bit 3, which
the format itself fixes. -/
structure FlgFields where
  /-- letter `v`, bits 7:6 -/
  version : BitVec 2
  /-- letter `i`, bit 5 -/
  blockIndependence : Bool
  /-- letter `k`, bit 4 -/
  blockChecksumPresent : Bool
  /-- letter `c`, bit 2 -/
  contentChecksumPresent : Bool
  /-- letter `r`, bit 1: reserved, held and hashed, no other effect (R81) -/
  reserved : Bool
  /-- letter `d`, bit 0 -/
  dictionaryIdPresent : Bool
deriving DecidableEq, Repr

/-- The BD byte (R76, R89). -/
structure BdFields where
  /-- letter `x`, bit 7: no field -/
  bit7 : Bool
  /-- letter `m`, bits 6:4 -/
  blockMaxSizeCode : BitVec 3
  /-- letter `x`, bits 3:0: no field -/
  low : BitVec 4
deriving DecidableEq, Repr

/-- What formats S and L have in common (R89): the descriptor bytes, the checksum byte and the data-block field. -/
structure FrameFields where
  flags : FlgFields
  bd : BdFields
  /-- letter `h` (R78) -/
  headerChecksum : Byte
  /-- letter `f` (R79) -/
  blockFlag : Bool
  /-- letter `z` (R79) -/
  blockSize : BitVec 31
deriving DecidableEq, Repr

/-- One constructor per row of opcode_table.json. -/
inductive Instr
  | chkmagic
  | rdflg
  | rdbd
  | brcsize
  | rdhc
  | rdblk
  | finish
  /-- the CTRL write that carries START, with its operand `strict` (R180) -/
  | start (strict : Bool)
  /-- host write of `v` to register number `n` (R183) -/
  | wrreg (n : Nat) (v : Word)
  /-- host read of register number `n` (R184) -/
  | rdreg (n : Nat)
  /-- the reset input (R230) -/
  | reset
  /-- a header of format S, 11 bytes (R72) -/
  | frameS (f : FrameFields)
  /-- a header of format L, 19 bytes, with its content size, letter `n` (R73, R77) -/
  | frameL (f : FrameFields) (contentSize : BitVec 64)
deriving DecidableEq, Repr

/-- An instruction as the hardware meets it, before decoding. -/
inductive Code
  /-- the 4-bit code of `ST`, which selects the micro-operation (R84) -/
  | uop (stCode : BitVec 4)
  /-- a register write on the host interface (R85, R183) -/
  | write (n : Nat) (v : Word)
  /-- a register read on the host interface (R85, R184) -/
  | read (n : Nat)
  /-- the reset input (R85) -/
  | reset
  /-- the bytes of a header in increasing offset order (R70) -/
  | frame (bytes : List Byte)
deriving DecidableEq, Repr

end Sys2Proof
end

