-- ==== Sys2Proof/WellFormed.lean ====
section
/-! DEFINITION. Which instruction terms stand for themselves. Every operand value of every row is legal
(R82, R85: any register number, any data, any field value), with one exception. -/

namespace Sys2Proof

/-- "a write to register 0 with data bit 0 = 1 is START" (opcode_table.json, WRREG's note; R85): such a WRREG
term is not the name of its own words. Every other term is well formed. -/
def Instr.wellFormed : Instr → Bool
  | .wrreg n v => !(n == 0 && v.getLsbD 0)
  | .chkmagic => true
  | .rdflg => true
  | .rdbd => true
  | .brcsize => true
  | .rdhc => true
  | .rdblk => true
  | .finish => true
  | .start _ => true
  | .rdreg _ => true
  | .reset => true
  | .frameS _ => true
  | .frameL _ _ => true

/-- `i` is well formed. -/
abbrev WellFormed (i : Instr) : Prop := i.wellFormed = true

end Sys2Proof
end

