-- ==== Sys2Proof/Decode.lean ====
section
/-! DEFINITION. Byte order (R11, R52), the field extractors of the header (R75, R76, R79), the decoder over
every raw code, total and rejecting by name, and after it the encoder. -/

namespace Sys2Proof

/-- `LE(b0, b1, ...)`: the byte at the lowest offset is the least significant (R11, R52). -/
def leNat : List Byte → Nat
  | [] => 0
  | b :: bs => b.toNat + 256 * leNat bs

/-- The `n` bytes of `v` in increasing offset order, least significant first: the inverse of `leNat` (R11). -/
def leBytes : Nat → Nat → List Byte
  | 0, _ => []
  | n + 1, v => BitVec.ofNat 8 v :: leBytes n (v / 256)

/-- `contentSizePresent`, bit 3 of the FLG byte, the one bit that selects the format (R70, R75). -/
def contentSizeBit (flg : Byte) : Bool := flg.getLsbD 3

/-- The six fields of R75 and the reserved bit, less bit 3. -/
def flgFields (b : Byte) : FlgFields where
  version := b.extractLsb' 6 2
  blockIndependence := b.getLsbD 5
  blockChecksumPresent := b.getLsbD 4
  contentChecksumPresent := b.getLsbD 2
  reserved := b.getLsbD 1
  dictionaryIdPresent := b.getLsbD 0

/-- The FLG byte with the given fields and bit 3 (R75): `vvik?crd`. -/
def flgByte (f : FlgFields) (contentSizePresent : Bool) : Byte :=
  f.version ++ BitVec.ofBool f.blockIndependence ++ BitVec.ofBool f.blockChecksumPresent
    ++ BitVec.ofBool contentSizePresent ++ BitVec.ofBool f.contentChecksumPresent
    ++ BitVec.ofBool f.reserved ++ BitVec.ofBool f.dictionaryIdPresent

/-- The parts of the BD byte (R76). -/
def bdFields (b : Byte) : BdFields where
  bit7 := b.getLsbD 7
  blockMaxSizeCode := b.extractLsb' 4 3
  low := b.extractLsb' 0 4

/-- The BD byte with the given parts (R76): `xmmmxxxx`. -/
def bdByte (f : BdFields) : Byte :=
  BitVec.ofBool f.bit7 ++ f.blockMaxSizeCode ++ f.low

/-- Bit 31 of the data-block field (R79, R150). -/
def blockFlagOf (w : Word) : Bool := w.getLsbD 31

/-- Bits 30:0 of the data-block field (R79, R150). -/
def blockSizeOf (w : Word) : BitVec 31 := w.extractLsb' 0 31

/-- The data-block field with the given flag and size (R79). -/
def blockWord (flag : Bool) (size : BitVec 31) : Word := BitVec.ofBool flag ++ size

/-- A 32-bit word read little-endian from bytes (R52). -/
def leWord (bs : List Byte) : Word := BitVec.ofNat 32 (leNat bs)

/-- A 64-bit value read little-endian from bytes (R52). -/
def leDword (bs : List Byte) : BitVec 64 := BitVec.ofNat 64 (leNat bs)

/-- Why a raw code stands for no instruction. -/
inductive DecodeError
  /-- a state code to which R84 assigns no micro-operation: 7, 8 (terminal), 9 to 15 (not a state) -/
  | noMicroOperation
  /-- the first four bytes are not the magic number (R80) -/
  | invalidMagic
  /-- fewer bytes than the format has (R80) -/
  | truncatedHeader
  /-- more bytes than the format has: not an 11- or 19-byte header by itself -/
  | trailingBytes
deriving DecidableEq, Repr

/-- R84: the state code selects the micro-operation. -/
def decodeUop (c : BitVec 4) : Except DecodeError Instr :=
  match c.toNat with
  | 0 => .ok .chkmagic
  | 1 => .ok .rdflg
  | 2 => .ok .rdbd
  | 3 => .ok .brcsize
  | 4 => .ok .rdhc
  | 5 => .ok .rdblk
  | 6 => .ok .finish
  | _ => .error .noMicroOperation

/-- R85, R183: a write to register 0 with data bit 0 = 1 is START with `strict` = data bit 1 (data bits 31:2
ignored); every other register write is WRREG. -/
def decodeWrite (n : Nat) (v : Word) : Instr :=
  if n == 0 && v.getLsbD 0 then .start (v.getLsbD 1) else .wrreg n v

/-- The bytes after BD of format S: `HC`, then the data-block field (R72). -/
def decodeTailS (flg bd : Byte) : List Byte → Except DecodeError Instr
  | [h, z0, z1, z2, z3] =>
    let w := leWord [z0, z1, z2, z3]
    .ok (.frameS ⟨flgFields flg, bdFields bd, h, blockFlagOf w, blockSizeOf w⟩)
  | rest => .error (if rest.length < 5 then .truncatedHeader else .trailingBytes)

/-- The bytes after BD of format L: the content size, `HC`, then the data-block field (R73). -/
def decodeTailL (flg bd : Byte) : List Byte → Except DecodeError Instr
  | [c0, c1, c2, c3, c4, c5, c6, c7, h, z0, z1, z2, z3] =>
    let w := leWord [z0, z1, z2, z3]
    .ok (.frameL ⟨flgFields flg, bdFields bd, h, blockFlagOf w, blockSizeOf w⟩
      (leDword [c0, c1, c2, c3, c4, c5, c6, c7]))
  | rest => .error (if rest.length < 13 then .truncatedHeader else .trailingBytes)

/-- A byte string that is exactly one header (R70, R71): magic number first, then bit 3 of the byte at
offset 4 tells the format. -/
def decodeFrame : List Byte → Except DecodeError Instr
  | m0 :: m1 :: m2 :: m3 :: rest =>
    if leWord [m0, m1, m2, m3] = Config.magicConst then
      match rest with
      | flg :: bd :: tail => if contentSizeBit flg then decodeTailL flg bd tail else decodeTailS flg bd tail
      | _ => .error .truncatedHeader
    else .error .invalidMagic
  | _ => .error .truncatedHeader

/-- The decoder, total on every raw code. -/
def decode : Code → Except DecodeError Instr
  | .uop c => decodeUop c
  | .write n v => .ok (decodeWrite n v)
  | .read n => .ok (.rdreg n)
  | .reset => .ok .reset
  | .frame bs => decodeFrame bs

/-- The eleven bytes of format S (R72, R89). -/
def frameSBytes (f : FrameFields) : List Byte :=
  leBytes 4 Config.magicConst.toNat ++ [flgByte f.flags false, bdByte f.bd, f.headerChecksum]
    ++ leBytes 4 (blockWord f.blockFlag f.blockSize).toNat

/-- The nineteen bytes of format L (R73, R89). -/
def frameLBytes (f : FrameFields) (contentSize : BitVec 64) : List Byte :=
  leBytes 4 Config.magicConst.toNat ++ [flgByte f.flags true, bdByte f.bd] ++ leBytes 8 contentSize.toNat
    ++ [f.headerChecksum] ++ leBytes 4 (blockWord f.blockFlag f.blockSize).toNat

/-- The data of the CTRL write that is START: `1 + 2*strict` (R236 step 5). -/
def startWord (strict : Bool) : Word := if strict then 3 else 1

/-- The encoder: the code each instruction is issued by (R84, R85, R72, R73). -/
def encode : Instr → Code
  | .chkmagic => .uop 0
  | .rdflg => .uop 1
  | .rdbd => .uop 2
  | .brcsize => .uop 3
  | .rdhc => .uop 4
  | .rdblk => .uop 5
  | .finish => .uop 6
  | .start strict => .write 0 (startWord strict)
  | .wrreg n v => .write n v
  | .rdreg n => .read n
  | .reset => .reset
  | .frameS f => .frame (frameSBytes f)
  | .frameL f cs => .frame (frameLBytes f cs)

/-- The raw code of a row of opcode_table.json whose bits are `w` (DESIGN CHOICE, log 9): the table gives the
micro-operations a 4-bit state code (in whole bytes 8 bits), the register writes their 32 data bits with the
register number in no bits (so 0, CTRL), the headers 88 and 152 bits with the byte at offset 0 lowest. The reset
input has no bits at all. -/
def tableCode (nbits w : Nat) : Option Code :=
  match nbits with
  | 0 => some .reset
  | 8 => some (.uop (BitVec.ofNat 4 w))
  | 32 => some (.write 0 (BitVec.ofNat 32 w))
  | 88 => some (.frame (leBytes 11 w))
  | 152 => some (.frame (leBytes 19 w))
  | _ => none

/-- The instruction the decoder reads from a table row's bits. -/
def decodeTableWord (nbits w : Nat) : Option Instr :=
  match tableCode nbits w with
  | some c => (decode c).toOption
  | none => none

end Sys2Proof
end

