-- ==== Sys2Proof/Machine/State.lean ====
section
/-! DEFINITION. The state: the sixteen elements of R20, the buffer (an input of a run, R37), and the host's side
as plain data: the moves not yet made and the values already returned. -/

namespace Sys2Proof.Machine

/-- The nine states of the sequencer (R21, R84). The 4-bit codes are `SeqState.code` (Machine/Operands.lean);
codes 9 to 15 are no state and not in the type (D29, U5; log 5). -/
inductive SeqState
  | start
  | magicRead
  | flagsRead
  | blockDescRead
  | contentSizeBranch
  | checksumRead
  | dataBlockRead
  | done
  | error
deriving DecidableEq, Repr

/-- The values of `ERR` (R25, R200). The 3-bit codes are `ErrCode.code` (Machine/Operands.lean); codes 4 to 7
are never written and not in the type (D29, U5; log 5). -/
inductive ErrCode
  | none
  | invalidMagic
  | truncatedHeader
  | checksumMismatch
deriving DecidableEq, Repr

/-- A transition that is still to happen (R241): a host access, reset, a change of the buffer, the parser's turn, a
header run as a whole (log 7); or one of the host's compound moves, PARSE (R88) and the wait for `RUN = 0`, which put
single moves in their place (log 23). The list of them in `State.pending` is the order in which host and parser
interleave (DESIGN CHOICE, log 1). -/
inductive Move
  /-- the parser takes one step before the next host move (no effect when `RUN = 0`, R165) -/
  | parserTurn
  /-- a host register write: START or WRREG (R180, R183) -/
  | write (n : Nat) (v : Word)
  /-- a host register read (R184) -/
  | read (n : Nat)
  /-- the reset input (R230) -/
  | reset
  /-- the host puts bytes into the buffer from offset `a` on (R185, R236 step 2) -/
  | fill (a : Nat) (bytes : List Byte)
  /-- the bytes of a header as one instruction: FRAME.S, FRAME.L (R72, R73; log 7) -/
  | header (bytes : List Byte)
  /-- "repeat `RDREG STATUS` until bit 4 (`RUN`) reads 0" (R88, R236 steps 1 and 6) -/
  | pollStatus
  /-- the pseudo-operation `PARSE buf, strict` (R88) -/
  | parse (bytes : List Byte) (strict : Bool)
deriving DecidableEq, Repr

/-- Why a step can stop with a fault. -/
inductive Fault
  /-- `RUN = 1` in a state to which R84 assigns no micro-operation (`Done`, `Error`): the parser has no step and
  is not at rest, the `stuck` of U5. R22 says no run reaches such a state. Raised by Machine/Frame.lean's
  `undecodable` and `parserStep`. Safe. -/
  | stuckSequencer
deriving DecidableEq, Repr

/-- Why a step can be refused. -/
inductive Refusal
  /-- an instruction without a meaning; raised by no arm of this model. Safe. -/
  | notModelled (mnemonic : String)
  /-- a micro-operation needs a buffer byte below `LEN` that the host never provided: `LEN` is larger than the
  number of bytes present, treatment `refuse` of U4 (D27, R185). Raised by Machine/Ops.lean's `withBytes`. Safe. -/
  | bufferByteAbsent
  /-- the host changes a buffer byte in `[0, 19)` while `RUN = 1`, treatment `refuse` of U3 (D20, R238). Raised by
  Machine/Ops.lean's `fillBuffer`. Safe. -/
  | bufferChangedDuringRun
deriving DecidableEq, Repr

/-- The whole state. -/
structure State where
  /-- `ST` (R21) -/
  st : SeqState
  /-- `RUN` (R22) -/
  run : Bool
  /-- `STRICT` (R23) -/
  strict : Bool
  /-- `LEN` (R24) -/
  len : Word
  /-- `ERR` (R25) -/
  err : ErrCode
  /-- `WARN_HC` (R26) -/
  warnHc : Bool
  /-- `CSIZE_VALID` (R27) -/
  csizeValid : Bool
  /-- `NREAD` (R28) -/
  nread : BitVec 5
  /-- `MAGIC` (R29) -/
  magic : Word
  /-- `FLG` (R30) -/
  flg : Byte
  /-- `BD` (R31) -/
  bd : Byte
  /-- `CSIZE` (R32) -/
  csize : BitVec 64
  /-- `HC_STORED` (R33) -/
  hcStored : Byte
  /-- `HASH` (R34) -/
  hash : Word
  /-- `BLK_FLAG` (R35) -/
  blkFlag : Bool
  /-- `BLK_SIZE` (R35) -/
  blkSize : BitVec 31
  /-- `BUF` (R50): offset and byte, offsets strictly rising; an offset not listed holds no byte (log 3) -/
  buf : List Host.Cell
  /-- the model's own: the moves still to happen, next first (log 1) -/
  pending : List Move
  /-- the model's own: the values RDREG has returned to the host, newest first (log 8) -/
  replies : List Word
deriving DecidableEq, Repr

/-- The state after reset (R230, the Reset column of R20), with nothing in the buffer, no move pending and no
value returned (log 1, 3, 8). -/
def State.reset : State where
  st := .start
  run := false
  strict := false
  len := 0
  err := .none
  warnHc := false
  csizeValid := false
  nread := 0
  magic := 0
  flg := 0
  bd := 0
  csize := 0
  hcStored := 0
  hash := 0
  blkFlag := false
  blkSize := 0
  buf := []
  pending := []
  replies := []

end Sys2Proof.Machine
end

