-- ==== Sys2Proof/Machine/Operands.lean ====
section
/-! DEFINITION. The codes of `ST` and `ERR` (R84, R200), the views of the descriptor bytes (R30, R31), the
conditional-offset adder (R121), and the register interface (R40 to R43). -/

namespace Sys2Proof.Machine

/-- R84: the codes, 0 to 8 in the order of the listing. -/
def SeqState.code : SeqState → BitVec 4
  | .start => 0
  | .magicRead => 1
  | .flagsRead => 2
  | .blockDescRead => 3
  | .contentSizeBranch => 4
  | .checksumRead => 5
  | .dataBlockRead => 6
  | .done => 7
  | .error => 8

/-- R200: the codes of `ERR`. -/
def ErrCode.code : ErrCode → BitVec 3
  | .none => 0
  | .invalidMagic => 1
  | .truncatedHeader => 2
  | .checksumMismatch => 3

/-! ### Views of `FLG`, `BD` and `HASH` -/

/-- `FLG.VERSION` (R111). -/
def State.flgVersion (s : State) : BitVec 2 := (flgFields s.flg).version

/-- `FLG.B_INDEP` (R112). -/
def State.flgBIndep (s : State) : Bool := (flgFields s.flg).blockIndependence

/-- `FLG.B_CHECKSUM` (R112). -/
def State.flgBChecksum (s : State) : Bool := (flgFields s.flg).blockChecksumPresent

/-- `FLG.C_SIZE` (R112), the one bit later micro-operations read. -/
def State.flgCSize (s : State) : Bool := contentSizeBit s.flg

/-- `FLG.C_CHECKSUM` (R112). -/
def State.flgCChecksum (s : State) : Bool := (flgFields s.flg).contentChecksumPresent

/-- `FLG.DICT_ID` (R112). -/
def State.flgDictId (s : State) : Bool := (flgFields s.flg).dictionaryIdPresent

/-- `BD.BLOCK_MAXSIZE` (R115). -/
def State.bdBlockMaxSize (s : State) : BitVec 3 := (bdFields s.bd).blockMaxSizeCode

/-- `HC_CALC = HASH[15:8]`, the reporting byte of a hash (R140). -/
def reportingByte (h : Word) : Byte := h.extractLsb' 8 8

/-- `HC_CALC` (R34, R140). -/
def State.hcCalc (s : State) : Byte := reportingByte s.hash

/-! ### The conditional-offset adder (R121) and the offsets of R7 -/

/-- `CS_OFF`, offset of the first content-size byte (R7; 90_conflicts.md C1; log 13). -/
def csOff : Nat := 6

/-- `CS_LEN` (R7). -/
def csLen : Nat := 8

/-- `hc_off = 6 + 8*cs`. -/
def hcOff (cs : Bool) : Nat := 6 + 8 * cs.toNat

/-- `blk_off = hc_off + 1`. -/
def blkOff (cs : Bool) : Nat := hcOff cs + 1

/-- `end_off = hc_off + 5`. -/
def endOff (cs : Bool) : Nat := hcOff cs + 5

/-- `hash_len = hc_off - 4`. -/
def hashLen (cs : Bool) : Nat := hcOff cs - 4

/-- The bytes the parser may address: `[0, 19)` (R50). -/
def windowLen : Nat := 19

/-! ### The register interface -/

/-- `STATUS.DONE` and the output `done_o` (R42, R211). -/
def State.doneO (s : State) : Bool := s.st == .done

/-- `STATUS.ERROR` and the output `error_o` (R42, R211). -/
def State.errorO (s : State) : Bool := s.st == .error

/-- Register 0 (R41): `START` reads 0, bit 1 is `STRICT`. -/
def State.ctrlReg (s : State) : Word := 0#30 ++ BitVec.ofBool s.strict ++ 0#1

/-- Register 2 (R40, R42). -/
def State.statusReg (s : State) : Word :=
  0#20 ++ BitVec.ofBool s.csizeValid ++ s.err.code ++ BitVec.ofBool s.warnHc ++ BitVec.ofBool s.errorO
    ++ BitVec.ofBool s.doneO ++ BitVec.ofBool s.run ++ s.st.code

/-- The value a read of register `n` returns (R40); 0 above 10 (R43). -/
def State.regValue (s : State) : Nat → Word
  | 0 => s.ctrlReg
  | 1 => s.len
  | 2 => s.statusReg
  | 3 => s.nread.zeroExtend 32
  | 4 => s.magic
  | 5 => 0#16 ++ s.bd ++ s.flg
  | 6 => s.csize.extractLsb' 0 32
  | 7 => s.csize.extractLsb' 32 32
  | 8 => 0#16 ++ s.hcCalc ++ s.hcStored
  | 9 => s.hash
  | 10 => blockWord s.blkFlag s.blkSize
  | _ => 0

end Sys2Proof.Machine
end

