-- ==== Sys2Proof/Machine/Flags.lean ====
section
/-! DEFINITION. The one flag computed by comparing values, `WARN_HC` (R26), and the optional flag `CSIZE_VALID` (R27). -/

namespace Sys2Proof.Machine

/-- `mm` of FINISH (R160): the stored byte against `HASH[15:8]`, an 8-bit comparison. -/
def checksumDiffers (s : State) : Bool := s.hcStored != s.hcCalc

/-- Whether a mismatch is fatal (R23, R160): only with `STRICT = 1`. -/
def checksumFatal (s : State) : Bool := checksumDiffers s && s.strict

/-- BRCSIZE's true branch: a content size is present (R27, R120). -/
def setContentSize (v : BitVec 64) (s : State) : State := { s with csize := v, csizeValid := true }

end Sys2Proof.Machine
end

