-- ==== Sys2Proof/Machine/Ops.lean ====
section
/-! DEFINITION. The shared operations: the buffer, the guarded read of every reading micro-operation, the error
entry (R206), the start of a run (R180), reset (R230), and the moves of the host that are no instruction.

There is no return from an error (R212): `Error` is left only by `beginRun` (START) and by `resetBlock`. -/

namespace Sys2Proof.Machine

/-! ### The buffer (R50, R52) -/

/-- The canonical form: offsets strictly rising. An unlisted offset reads as no byte, so no entry can equal what an
unlisted offset reads as. -/
abbrev Memory.wf (m : List Host.Cell) : Prop := m.Pairwise (fun x y => x.1 < y.1)

/-- The byte at offset `a`, if the host has provided one (log 3). -/
def readByte : List Host.Cell → Nat → Option Byte
  | [], _ => none
  | c :: m, a => if c.1 = a then some c.2 else readByte m a

/-- The host puts `b` at offset `a`. -/
def writeByte : List Host.Cell → Nat → Byte → List Host.Cell
  | [], a, b => [(a, b)]
  | c :: m, a, b =>
    if a < c.1 then (a, b) :: c :: m
    else if a = c.1 then (a, b) :: m
    else c :: writeByte m a b

/-- `BUF[a .. a+n)` in increasing offset order (R10), if every byte of it is present. -/
def readBytes (m : List Host.Cell) : Nat → Nat → Option (List Byte)
  | _, 0 => some []
  | a, n + 1 =>
    match readByte m a, readBytes m (a + 1) n with
    | some b, some bs => some (b :: bs)
    | _, _ => none

/-- The host puts the bytes `bs` at offsets `a`, `a+1`, ... -/
def writeBytes (m : List Host.Cell) : Nat → List Byte → List Host.Cell
  | _, [] => m
  | a, b :: bs => writeBytes (writeByte m a b) (a + 1) bs

/-! ### Error entry (R206) -/

/-- `raise X`: `ERR <- code(X); ST <- Error; RUN <- 0`, and nothing else. -/
def raise (e : ErrCode) (s : State) : State := { s with err := e, st := .error, run := false }

/-! ### The guarded read (R56, R202) -/

/-- Go on with the bytes `BUF[a .. a+n)`. A byte that is not there is below `LEN` here, so the host broke R185:
refused (U4, log 3). -/
def withBytes (s : State) (a n : Nat) (k : List Byte → Host.Outcome State Fault Refusal) :
    Host.Outcome State Fault Refusal :=
  match readBytes s.buf a n with
  | some bs => k bs
  | none => .refused .bufferByteAbsent

/-- "A micro-operation that is about to read the range `[a, a+n)` raises TruncatedHeader when `a + n > LEN`, before
reading anything." (R202) -/
def readField (s : State) (a n : Nat) (k : List Byte → Host.Outcome State Fault Refusal) :
    Host.Outcome State Fault Refusal :=
  if s.len.toNat < a + n then .next (raise .truncatedHeader s) else withBytes s a n k

/-! ### Start of a run and reset -/

/-- START's effect when it is accepted (R180). `LEN` is left. -/
def beginRun (strict : Bool) (s : State) : State :=
  { s with
    strict := strict, err := .none, warnHc := false, csizeValid := false, nread := 0, magic := 0, flg := 0,
    bd := 0, csize := 0, hcStored := 0, hash := 0, blkFlag := false, blkSize := 0, st := .start, run := true }

/-- The reset input (R230): every element of the block; the buffer is not part of it, nor is the host's side. -/
def resetBlock (s : State) : State :=
  { State.reset with buf := s.buf, pending := s.pending, replies := s.replies }

/-! ### The host's side -/

/-- The next move has been taken. -/
def popMove (s : State) : State := { s with pending := s.pending.tail }

/-- A register read returns `v` to the host (R184). -/
def returnWord (v : Word) (s : State) : State := { s with replies := v :: s.replies }

/-- Some offset of `[0, 19)` reads differently in the two buffers (R238). -/
def windowChanged (m m' : List Host.Cell) : Bool :=
  (List.range windowLen).any fun a => readByte m a != readByte m' a

/-- The host changes the buffer (R236 step 2). While `RUN = 1` a change within `[0, 19)` is not defined and refused
(R238, U3, log 4); offsets from 19 on "may change freely". -/
def fillBuffer (a : Nat) (bs : List Byte) (s : State) : Host.Outcome State Fault Refusal :=
  if s.run && windowChanged s.buf (writeBytes s.buf a bs) then .refused .bufferChangedDuringRun
  else .next { s with buf := writeBytes s.buf a bs }

/-- The value written to LEN, by PARSE or before a header's run, for a buffer of `n` bytes: `n`, or the largest value
LEN holds when `n` does not fit (R24: any value of at least 19 does; log 16). -/
def lenOf (n : Nat) : Word := BitVec.ofNat 32 (min n (2 ^ 32 - 1))

end Sys2Proof.Machine
end

