-- ==== Sys2Proof/Machine/ContentSize.lean ====
section
/-! DEFINITION. Family 3: BRCSIZE (42_content_size_offset.md), the content size at `[6, 14)` (R122, C1). -/

namespace Sys2Proof.Machine

/-- BRCSIZE (R120): both arms end in `ContentSizeBranch`; the false arm reads nothing and cannot fail. -/
def execBrcsize (s : State) : Host.Outcome State Fault Refusal :=
  if s.flgCSize then
    readField s csOff csLen fun bs =>
      .next { setContentSize (leDword bs) s with nread := BitVec.ofNat 5 (csOff + csLen), st := .contentSizeBranch }
  else .next { s with st := .contentSizeBranch }

end Sys2Proof.Machine
end

