-- ==== Sys2Proof/Machine/DataBlock.lean ====
section
/-! DEFINITION. Family 5: RDBLK (44_data_block.md). -/

namespace Sys2Proof.Machine

/-- RDBLK (R150): bit 31 and bits 30:0 of the four bytes at `blk_off`. -/
def execRdblk (s : State) : Host.Outcome State Fault Refusal :=
  readField s (blkOff s.flgCSize) 4 fun bs =>
    .next { s with
      blkFlag := blockFlagOf (leWord bs), blkSize := blockSizeOf (leWord bs),
      nread := BitVec.ofNat 5 (endOff s.flgCSize), st := .dataBlockRead }

end Sys2Proof.Machine
end

