-- ==== Sys2Proof/Machine/Descriptors.lean ====
section
/-! DEFINITION. Family 2: RDFLG and RDBD (41_descriptors.md). Every byte value is accepted (R82). -/

namespace Sys2Proof.Machine

/-- RDFLG (R110): all eight bits are kept. -/
def execRdflg (s : State) : Host.Outcome State Fault Refusal :=
  readField s 4 1 fun bs =>
    .next { s with flg := BitVec.ofNat 8 (leNat bs), nread := 5, st := .flagsRead }

/-- RDBD (R114): all eight bits are kept. -/
def execRdbd (s : State) : Host.Outcome State Fault Refusal :=
  readField s 5 1 fun bs =>
    .next { s with bd := BitVec.ofNat 8 (leNat bs), nread := 6, st := .blockDescRead }

end Sys2Proof.Machine
end

