-- ==== Sys2Proof/Machine/Finish.lean ====
section
/-! DEFINITION. Family 6: FINISH (45_finish_and_sequencing.md). -/

namespace Sys2Proof.Machine

/-- FINISH (R160): `WARN_HC` is written in every case; a fatal mismatch raises ChecksumMismatch, else the run is done. -/
def execFinish (s : State) : Host.Outcome State Fault Refusal :=
  let s1 := { s with warnHc := checksumDiffers s }
  .next (if checksumFatal s then raise .checksumMismatch s1 else { s1 with st := .done, run := false })

end Sys2Proof.Machine
end

