-- ==== Sys2Proof/Machine/Hash.lean ====
section
/-! DEFINITION. The checksum hash: `HASH32` is XXH32 (R133; the spec marks it as general knowledge, log 6).
`+` and `*` are modulo 2^32 (R12, R139). -/

namespace Sys2Proof.Machine

/-! The five constants of R134. -/

def prime1 : Word := 0x9E3779B1
def prime2 : Word := 0x85EBCA77
def prime3 : Word := 0xC2B2AE3D
def prime4 : Word := 0x27D4EB2F
def prime5 : Word := 0x165667B1

/-- `rotl32(x, r)` (R12). -/
def rotl32 (x : Word) (r : Nat) : Word := (x <<< r) ||| (x >>> (32 - r))

/-- One little-endian 4-byte word (R135, first loop). -/
def hashWord (h w : Word) : Word := rotl32 (h + w * prime3) 17 * prime4

/-- One remaining byte, zero-extended (R135, second loop). -/
def hashByte (h : Word) (b : Byte) : Word := rotl32 (h + b.zeroExtend 32 * prime5) 11 * prime1

/-- The two loops of R135: whole words while four bytes are left, then single bytes. -/
def hashLoops : List Byte → Word → Word
  | b0 :: b1 :: b2 :: b3 :: rest, h => hashLoops rest (hashWord h (leWord [b0, b1, b2, b3]))
  | [b0, b1, b2], h => hashByte (hashByte (hashByte h b0) b1) b2
  | [b0, b1], h => hashByte (hashByte h b0) b1
  | [b0], h => hashByte h b0
  | [], h => h

/-- The final avalanche (R135). -/
def avalanche (h : Word) : Word :=
  let h := h ^^^ (h >>> 15)
  let h := h * prime2
  let h := h ^^^ (h >>> 13)
  let h := h * prime3
  h ^^^ (h >>> 16)

/-- The four accumulators of R138. -/
structure HashLanes where
  v1 : Word
  v2 : Word
  v3 : Word
  v4 : Word
deriving DecidableEq, Repr

/-- One lane absorbs one word (R138). -/
def hashLane (v w : Word) : Word := rotl32 (v + w * prime2) 13 * prime1

/-- `k` stripes of 16 bytes (R138), and the bytes left over. -/
def hashStripes : Nat → List Byte → HashLanes → HashLanes × List Byte
  | 0, p, v => (v, p)
  | k + 1, p, v =>
    hashStripes k (p.drop 16)
      { v1 := hashLane v.v1 (leWord (p.take 4))
        v2 := hashLane v.v2 (leWord ((p.drop 4).take 4))
        v3 := hashLane v.v3 (leWord ((p.drop 8).take 4))
        v4 := hashLane v.v4 (leWord ((p.drop 12).take 4)) }

/-- XXH32 of a byte string with a 32-bit seed: R135 below 16 bytes, R138 from 16 on (never reached by the block,
which hashes 2 or 10 bytes). -/
def xxh32 (p : List Byte) (seed : Word) : Word :=
  if p.length < 16 then avalanche (hashLoops p (seed + prime5 + BitVec.ofNat 32 p.length))
  else
    let (v, rest) := hashStripes (p.length / 16) p
      { v1 := seed + prime1 + prime2, v2 := seed + prime2, v3 := seed, v4 := seed - prime1 }
    let h := rotl32 v.v1 1 + rotl32 v.v2 7 + rotl32 v.v3 12 + rotl32 v.v4 18 + BitVec.ofNat 32 p.length
    avalanche (hashLoops rest h)

/-- `HASH32` (R7, R132): XXH32 (R133). -/
def hash32 (p : List Byte) (seed : Word) : Word := xxh32 p seed

/-- `HASH32` with the seed the block always gives it (R130). -/
def headerHash (p : List Byte) : Word := hash32 p Config.hashSeed

end Sys2Proof.Machine
end

