-- ==== Sys2Proof/Machine/HeaderChecksum.lean ====
section
/-! DEFINITION. Family 4: RDHC (43_header_checksum.md). -/

namespace Sys2Proof.Machine

/-- RDHC (R130): the stored byte at `hc_off`, the hash of `BUF[4 .. hc_off)` (R131). The comparison is FINISH's (R141). -/
def execRdhc (s : State) : Host.Outcome State Fault Refusal :=
  readField s (hcOff s.flgCSize) 1 fun stored =>
    withBytes s 4 (hashLen s.flgCSize) fun span =>
      .next { s with
        hcStored := BitVec.ofNat 8 (leNat stored), hash := headerHash span,
        nread := BitVec.ofNat 5 (hcOff s.flgCSize + 1), st := .checksumRead }

end Sys2Proof.Machine
end

