-- ==== Sys2Proof/Machine/HostCommands.lean ====
section
/-! DEFINITION. Family 7: the host's operations START, WRREG, RDREG (46_host_commands.md) and RESET
(70_reset_and_hazards.md). None of them can fail. -/

namespace Sys2Proof.Machine

/-- START (R180): accepted when `RUN = 0`, ignored as a whole when `RUN = 1` (R182). -/
def execStart (strict : Bool) (s : State) : Host.Outcome State Fault Refusal :=
  .next (if s.run then s else beginRun strict s)

/-- What a write of `v` to CTRL does when `RUN = 0` (R41, R183). -/
def writeCtrl (v : Word) (s : State) : State :=
  let s1 := { s with strict := v.getLsbD 1 }
  if v.getLsbD 0 then beginRun (v.getLsbD 1) s1 else s1

/-- WRREG (R183): CTRL and LEN when `RUN = 0`; anything else has no effect (R43, R182). -/
def execWrreg (n : Nat) (v : Word) (s : State) : Host.Outcome State Fault Refusal :=
  .next (if s.run then s
    else match n with
      | 0 => writeCtrl v s
      | 1 => { s with len := v }
      | _ => s)

/-- RDREG (R184): returns the register's value; no side effect on the block. -/
def execRdreg (n : Nat) (s : State) : Host.Outcome State Fault Refusal :=
  .next (returnWord (s.regValue n) s)

/-- RESET (R230, R231): at any time, also during a run. -/
def execReset (s : State) : Host.Outcome State Fault Refusal :=
  .next (resetBlock s)

end Sys2Proof.Machine
end

