-- ==== Sys2Proof/Machine/Magic.lean ====
section
/-! DEFINITION. Family 1: CHKMAGIC (40_magic.md). -/

namespace Sys2Proof.Machine

/-- CHKMAGIC (R100): length first, then value (R101); on a wrong value `MAGIC` and `NREAD` are still written (R102). -/
def execChkmagic (s : State) : Host.Outcome State Fault Refusal :=
  readField s 0 4 fun bs =>
    let m := leWord bs
    let s1 := { s with magic := m, nread := 4 }
    .next (if m ≠ Config.magicConst then raise .invalidMagic s1 else { s1 with st := .magicRead })

end Sys2Proof.Machine
end

