-- ==== Sys2Proof/Machine/Frame.lean ====
section
/-! DEFINITION. The two header formats as instructions: a header is run by the parser from Start to the end of the
run (R168), all its micro-operations at once, as R244 allows (log 7). -/

namespace Sys2Proof.Machine

/-- The micro-operation R165 assigns to `ST`. -/
def parserStep (s : State) : Host.Outcome State Fault Refusal :=
  match s.st with
  | .start => execChkmagic s
  | .magicRead => execRdflg s
  | .flagsRead => execRdbd s
  | .blockDescRead => execBrcsize s
  | .contentSizeBranch => execRdhc s
  | .checksumRead => execRdblk s
  | .dataBlockRead => execFinish s
  | .done => .fault .stuckSequencer
  | .error => .fault .stuckSequencer

/-- Parser steps, at most `k` of them, until `RUN = 0`. -/
def runParser : Nat → State → Host.Outcome State Fault Refusal
  | 0, s => .next s
  | k + 1, s =>
    if s.run then
      match parserStep s with
      | .next t => runParser k t
      | .fault f => .fault f
      | .refused r => .refused r
    else .next s

/-- "Every run ends after at most seven parser steps" (R171). -/
def maxSteps : Nat := 7

/-- What the host does before a run (R236 steps 2 to 5): fill the buffer, write LEN, START with `strict`. -/
def prepareRun (bs : List Byte) (strict : Bool) (s : State) : State :=
  beginRun strict { s with buf := writeBytes s.buf 0 bs, len := lenOf bs.length }

/-- A whole run: wait for `RUN = 0` (R236 step 1), prepare and START with `strict`, then run to `RUN = 0`. -/
def parseRun (bs : List Byte) (strict : Bool) (s : State) : Host.Outcome State Fault Refusal :=
  match runParser maxSteps s with
  | .next t => runParser maxSteps (prepareRun bs strict t)
  | .fault f => .fault f
  | .refused r => .refused r

/-- FRAME.S (R72): the parser runs over the eleven bytes. The row has no strictness operand: `STRICT` as it stands
(log 7). -/
def execFrameS (f : FrameFields) (s : State) : Host.Outcome State Fault Refusal :=
  parseRun (frameSBytes f) s.strict s

/-- FRAME.L (R73): the parser runs over the nineteen bytes, `STRICT` as it stands (log 7). -/
def execFrameL (f : FrameFields) (contentSize : BitVec 64) (s : State) : Host.Outcome State Fault Refusal :=
  parseRun (frameLBytes f contentSize) s.strict s

/-- A raw code that decodes to no instruction. Bytes that are no header are parsed all the same: the parser itself
raises InvalidMagic or TruncatedHeader, or ignores what follows the header (R80, R168). A state code without a
micro-operation is stuck (U5). -/
def undecodable (c : Code) (s : State) : Host.Outcome State Fault Refusal :=
  match c with
  | .frame bs => parseRun bs s.strict s
  | .uop _ => .fault .stuckSequencer
  | .write _ _ => .next s
  | .read _ => .next s
  | .reset => .next s

end Sys2Proof.Machine
end

