-- ==== Sys2Proof/Machine/Fetch.lean ====
section
/-! DEFINITION. Which raw code the next step runs, the moves that run none, and how a code is placed next. -/

namespace Sys2Proof.Machine

/-- The parser's code, when it has a step (R165). -/
def fetchParser (s : State) : Option Code := if s.run then some (.uop s.st.code) else none

/-- The code of the next transition (R241): the first pending move; with nothing pending, the parser's. -/
def fetch (s : State) : Option Code :=
  match s.pending with
  | [] => fetchParser s
  | .parserTurn :: _ => fetchParser s
  | .write n v :: _ => some (.write n v)
  | .read n :: _ => some (.read n)
  | .reset :: _ => some .reset
  | .header bs :: _ => some (.frame bs)
  | .fill _ _ :: _ => none
  | .pollStatus :: _ => none
  | .parse _ _ :: _ => none

/-- The single moves of `PARSE buf, strict` from `RUN = 0` on (R88, R236 steps 2 to 6): fill, WRREG LEN, START, RDREG
STATUS until `RUN` reads 0, then the registers the host collects, 2 to 10 (R185), in this order (log 23). -/
def parseMoves (bs : List Byte) (strict : Bool) : List Move :=
  [.fill 0 bs, .write 1 (lenOf bs.length), .write 0 (startWord strict), .pollStatus]
    ++ [2, 3, 4, 5, 6, 7, 8, 9, 10].map .read

/-- PARSE (R88): its single moves take its place, after a wait when a run is in progress: "otherwise wait for it"
(R236 step 1). -/
def expandParse (bs : List Byte) (strict : Bool) (s : State) : State :=
  { s with pending := (if s.run then [.pollStatus] else []) ++ parseMoves bs strict ++ s.pending }

/-- What the host does after it has read STATUS: while bit 4 reads 1 it lets the parser move and reads again (log 23). -/
def pollAgain (s : State) : State :=
  if (s.regValue 2).getLsbD 4 then { s with pending := .parserTurn :: .pollStatus :: s.pending } else s

/-- A transition that fetches no instruction: the host fills the buffer, reads STATUS in its wait, or puts PARSE's
moves in its place; or the parser is at rest, which is "not a stuck state but the normal rest" (R165): nothing
changes (log 2). -/
def hostOrRest (s : State) : Host.Outcome State Fault Refusal :=
  match s.pending with
  | .fill a bs :: _ => fillBuffer a bs (popMove s)
  | .pollStatus :: _ => execRdreg 2 (pollAgain (popMove s))
  | .parse bs strict :: _ => .next (expandParse bs strict (popMove s))
  | _ => .next (popMove s)

/-- The state of `ST` with a given code; codes 9 to 15 are no state, and like 8 they select nothing (U5, D29). -/
def seqStateOf (c : BitVec 4) : SeqState :=
  match c.toNat with
  | 0 => .start
  | 1 => .magicRead
  | 2 => .flagsRead
  | 3 => .blockDescRead
  | 4 => .contentSizeBranch
  | 5 => .checksumRead
  | 6 => .dataBlockRead
  | 7 => .done
  | _ => .error

/-- `s` with the code `c` as the next to run: a micro-operation is selected by `ST` with `RUN = 1` (R84) and the
parser moves next; a host operation is the next move. -/
def placeCode (c : Code) (s : State) : State :=
  match c with
  | .uop code => { s with st := seqStateOf code, run := true, pending := .parserTurn :: s.pending }
  | .write n v => { s with pending := .write n v :: s.pending }
  | .read n => { s with pending := .read n :: s.pending }
  | .reset => { s with pending := .reset :: s.pending }
  | .frame bs => { s with pending := .header bs :: s.pending }

/-- `s` with a table row's bits placed as the next code (log 9); other widths place nothing. -/
def placeTableWord (nbits w : Nat) (s : State) : State :=
  match tableCode nbits w with
  | some c => placeCode c s
  | none => s

end Sys2Proof.Machine
end

