-- ==== Sys2Proof/Machine/Dispatch.lean ====
section
/-! DEFINITION. One arm per constructor of Instr. -/

namespace Sys2Proof.Machine

def exec (i : Instr) (s : State) : Host.Outcome State Fault Refusal :=
  match i with
  | .chkmagic => Sys2Proof.Machine.execChkmagic s
  | .rdflg => Sys2Proof.Machine.execRdflg s
  | .rdbd => Sys2Proof.Machine.execRdbd s
  | .brcsize => Sys2Proof.Machine.execBrcsize s
  | .rdhc => Sys2Proof.Machine.execRdhc s
  | .rdblk => Sys2Proof.Machine.execRdblk s
  | .finish => Sys2Proof.Machine.execFinish s
  | .start strict => Sys2Proof.Machine.execStart strict s
  | .wrreg n v => Sys2Proof.Machine.execWrreg n v s
  | .rdreg n => Sys2Proof.Machine.execRdreg n s
  | .reset => Sys2Proof.Machine.execReset s
  | .frameS f => Sys2Proof.Machine.execFrameS f s
  | .frameL f contentSize => Sys2Proof.Machine.execFrameL f contentSize s

end Sys2Proof.Machine
end

