-- ==== Sys2Proof/Machine/Step.lean ====
section
/-! DEFINITION. One step: the next transition of host or parser (R241). -/

namespace Sys2Proof.Machine

/-- One indivisible transition (R241): take the next pending move, or let the parser move, or rest. -/
def step (s : State) : Host.Outcome State Fault Refusal :=
  match fetch s with
  | none => hostOrRest s
  | some c =>
    match decode c with
    | .ok i => exec i (popMove s)
    | .error _ => undecodable c (popMove s)

/-- `s` with the instruction whose table bits are `w` stored where `step` takes its next instruction from (log 9). -/
def State.withFetchWord (s : State) (nbits w : Nat) : State := placeTableWord nbits w s

end Sys2Proof.Machine
end

