-- ==== Sys2Proof/Safety.lean ====
section
/-! DEFINITION. The terms claims are made in: what the host owes a run, the invariants of the block, and the whole
parse as one table (R168). -/

namespace Sys2Proof.Safety

open Sys2Proof.Machine

/-- The host's duty before a run (R185): every byte a run can read, `[0, min(LEN, 19))`, is in the buffer. -/
abbrev BufReady (s : State) : Prop :=
  ∀ a, a < min s.len.toNat windowLen → (readByte s.buf a).isSome = true

/-- The sixteen elements of R20 alone: the host's side and the buffer blanked out. -/
def blockOf (s : State) : State := { s with buf := [], pending := [], replies := [] }

/-- The twelve elements START clears to 0 (R20, R180) are 0, and `ST` is `Start`. -/
abbrev Cleared (s : State) : Prop :=
  s.st = .start ∧ s.err = .none ∧ s.warnHc = false ∧ s.csizeValid = false ∧ s.nread = 0 ∧ s.magic = 0 ∧ s.flg = 0
    ∧ s.bd = 0 ∧ s.csize = 0 ∧ s.hcStored = 0 ∧ s.hash = 0 ∧ s.blkFlag = false ∧ s.blkSize = 0

/-- `k` steps of the machine, stopping at the first fault or refusal. -/
def runSteps (k : Nat) (s : State) : Host.Outcome State Fault Refusal := Host.Core.run Sys2Proof.core k s

/-- `ST` is one of the two terminal states (R84). -/
def terminal : SeqState → Bool
  | .done => true
  | .error => true
  | _ => false

/-- How many micro-operations of a run have been completed when `ST` is the given state (R165); `Error` says
nothing of it and counts as 0. -/
def completed : SeqState → Nat
  | .start => 0
  | .magicRead => 1
  | .flagsRead => 2
  | .blockDescRead => 3
  | .contentSizeBranch => 4
  | .checksumRead => 5
  | .dataBlockRead => 6
  | .done => 7
  | .error => 0

/-- `NREAD` in each state of a run that has not failed (R28). -/
def bytesConsumed (cs : Bool) : SeqState → Nat
  | .start => 0
  | .magicRead => 4
  | .flagsRead => 5
  | .blockDescRead => 6
  | .contentSizeBranch => hcOff cs
  | .checksumRead => hcOff cs + 1
  | .dataBlockRead => endOff cs
  | .done => endOff cs
  | .error => 0

/-- The invariants R22, R25, R26, R27, R28, R29, R232 and the canonical buffer, over every reachable state. -/
structure BlockInv (s : State) : Prop where
  /-- R22: `RUN = 1` only in the seven running states. -/
  runLive : s.run = true → terminal s.st = false
  /-- R232: idle outside the terminal states is idle at `Start`. -/
  idle : s.run = false → terminal s.st = false → s.st = .start
  /-- R25: `ERR != 0` exactly when `ST = Error`. -/
  errState : s.err ≠ .none ↔ s.st = .error
  /-- R26: `WARN_HC` is set only by FINISH. -/
  warnState : s.warnHc = true → s.st = .done ∨ (s.st = .error ∧ s.err = .checksumMismatch)
  /-- R26: a fatal mismatch has set `WARN_HC`. -/
  mismatchWarns : s.err = .checksumMismatch → s.warnHc = true
  /-- R26: `Done` with the warning records a difference, without it equality. -/
  warnMeans : s.st = .done → s.warnHc = checksumDiffers s
  /-- R27: without `CSIZE_VALID`, `CSIZE` holds 0. -/
  csizeAbsent : s.csizeValid = false → s.csize = 0
  /-- R27: from `ContentSizeBranch` to `Done`, `CSIZE_VALID = FLG[3]`. -/
  csizeFlag : 4 ≤ completed s.st → s.csizeValid = s.flgCSize
  /-- R27, R120: before `ContentSizeBranch` no content size has been read. -/
  csizeNotYet : s.st ≠ .error → completed s.st < 4 → s.csizeValid = false
  /-- R102: nor when the magic number was wrong. -/
  csizeNotOnMagic : s.err = .invalidMagic → s.csizeValid = false
  /-- R28: `NREAD` in every state but `Error`. -/
  nreadState : s.st ≠ .error → s.nread.toNat = bytesConsumed s.flgCSize s.st
  /-- R29: from `MagicRead` to `Done`, `MAGIC` is the constant. -/
  magicState : 1 ≤ completed s.st → s.magic = Config.magicConst
  /-- the buffer's canonical form -/
  bufWf : Memory.wf s.buf

/-- During a run the report elements are the buffer's bytes as far as the run has got, and the others are still 0
(R29 to R35, R57, R180): the buffer has not changed under the run (R60). -/
structure Coherent (s : State) : Prop where
  magic : s.run = true → 1 ≤ completed s.st →
    ∃ bs, readBytes s.buf 0 4 = some bs ∧ leWord bs = Config.magicConst
  flg : s.run = true → 2 ≤ completed s.st → readByte s.buf 4 = some s.flg
  bd : s.run = true → 3 ≤ completed s.st → readByte s.buf 5 = some s.bd
  csize : s.run = true → 4 ≤ completed s.st → s.flgCSize = true →
    readBytes s.buf 6 8 = some (leBytes 8 s.csize.toNat)
  stored : s.run = true → 5 ≤ completed s.st → readByte s.buf (hcOff s.flgCSize) = some s.hcStored
  hash : s.run = true → 5 ≤ completed s.st →
    s.hash = headerHash ([s.flg, s.bd] ++ if s.flgCSize then leBytes 8 s.csize.toNat else [])
  blk : s.run = true → 6 ≤ completed s.st →
    readBytes s.buf (blkOff s.flgCSize) 4 = some (leBytes 4 (blockWord s.blkFlag s.blkSize).toNat)
  ahead2 : s.run = true → completed s.st < 2 → s.flg = 0
  ahead3 : s.run = true → completed s.st < 3 → s.bd = 0
  ahead4 : s.run = true → completed s.st < 4 → s.csizeValid = false ∧ s.csize = 0
  ahead5 : s.run = true → completed s.st < 5 → s.hcStored = 0 ∧ s.hash = 0
  ahead6 : s.run = true → completed s.st < 6 → s.blkFlag = false ∧ s.blkSize = 0
  /-- every length test passed so far (R202) -/
  lenRead : s.run = true → bytesConsumed s.flgCSize s.st ≤ s.len.toNat

/-! ### The whole parse as one table (R168) -/

/-- The elements of `B` as R168 names them: `m`, `cs`, `H`, `w`. -/
def parsedMagic (B : Nat → Byte) : Word := B 3 ++ B 2 ++ B 1 ++ B 0

def parsedCs (B : Nat → Byte) : Bool := (B 4).getLsbD 3

def parsedCsize (B : Nat → Byte) : BitVec 64 := B 13 ++ B 12 ++ B 11 ++ B 10 ++ B 9 ++ B 8 ++ B 7 ++ B 6

def parsedHash (B : Nat → Byte) : Word :=
  headerHash (if parsedCs B then [B 4, B 5, B 6, B 7, B 8, B 9, B 10, B 11, B 12, B 13] else [B 4, B 5])

def parsedStored (B : Nat → Byte) : Byte := if parsedCs B then B 14 else B 6

def parsedBlock (B : Nat → Byte) : Word :=
  if parsedCs B then B 18 ++ B 17 ++ B 16 ++ B 15 else B 10 ++ B 9 ++ B 8 ++ B 7

/-- Lines 10 to 12 agree on "everything": the report of a run that read the whole header, with `ST`, `ERR`,
`WARN_HC` still open. -/
def fullReport (B : Nat → Byte) (s : State) : State :=
  { s with
    magic := parsedMagic B, flg := B 4, bd := B 5, csizeValid := parsedCs B,
    csize := if parsedCs B then parsedCsize B else 0, hcStored := parsedStored B, hash := parsedHash B,
    blkFlag := (parsedBlock B).getLsbD 31, blkSize := (parsedBlock B).extractLsb' 0 31,
    nread := if parsedCs B then 19 else 11 }

/-- R168: the end state of the run that starts in `s`, a state as START leaves it, over the buffer bytes `B`: the
first line whose condition holds, and the number of steps taken. -/
def parseEnd (B : Nat → Byte) (s : State) : Nat × State :=
  let L := s.len.toNat
  let cs := parsedCs B
  let mm := parsedStored B != (parsedHash B).extractLsb' 8 8
  let trunc (t : State) : State := { t with st := .error, err := .truncatedHeader, run := false }
  let s2 := { s with magic := parsedMagic B, nread := 4 }
  let s3 := { s2 with flg := B 4, nread := 5 }
  let s4 := { s3 with bd := B 5, nread := 6 }
  let s5 := if cs then { s4 with csize := parsedCsize B, csizeValid := true, nread := 14 } else s4
  let s6 := { s5 with hcStored := parsedStored B, hash := parsedHash B, nread := if cs then 15 else 7 }
  if L < 4 then (1, trunc s)
  else if parsedMagic B ≠ 0x184D2204 then (1, { s2 with st := .error, err := .invalidMagic, run := false })
  else if L = 4 then (2, trunc s2)
  else if L = 5 then (3, trunc s3)
  else if cs = true ∧ L ≤ 13 then (4, trunc s4)
  else if cs = false ∧ L = 6 then (5, trunc s4)
  else if cs = true ∧ L = 14 then (5, trunc s5)
  else if cs = false ∧ L ≤ 10 then (6, trunc s6)
  else if cs = true ∧ L ≤ 18 then (6, trunc s6)
  else if mm = true ∧ s.strict = true then
    (7, { fullReport B s with st := .error, err := .checksumMismatch, warnHc := true, run := false })
  else (7, { fullReport B s with st := .done, warnHc := mm, run := false })

end Sys2Proof.Safety
end

