-- ==== Sys2Proof/Certificates/Slice0/Obligations.lean ====
section
/-! DEFINITION. The statements for the provers. Byte values, offsets and register layouts are written out from the
rules here, not taken from the model's own helpers, wherever a rule gives them. -/

open Sys2Proof Sys2Proof.Machine Sys2Proof.Safety

namespace Sys2Proof.Claims

/-- The micro-operation `i` is the one performed when `RUN = 1` and `ST = q`, code `c` (R84). -/
def Selects (q : SeqState) (c : BitVec 4) (i : Instr) : Prop :=
  q.code = c ∧ decode (.uop c) = .ok i ∧
    ∀ s : State, s.run = true → s.st = q → s.pending = [] → step s = exec i s

/-- The seven micro-operations. -/
abbrev uops : List Instr := [.chkmagic, .rdflg, .rdbd, .brcsize, .rdhc, .rdblk, .finish]

/-- R165's column "`ST` after, no error". -/
def successor : SeqState → SeqState
  | .start => .magicRead
  | .magicRead => .flagsRead
  | .flagsRead => .blockDescRead
  | .blockDescRead => .contentSizeBranch
  | .contentSizeBranch => .checksumRead
  | .checksumRead => .dataBlockRead
  | .dataBlockRead => .done
  | .done => .done
  | .error => .error

/-- R165's column "micro-operation": none in the terminal states. -/
def assigned : SeqState → Option Instr
  | .start => some .chkmagic
  | .magicRead => some .rdflg
  | .flagsRead => some .rdbd
  | .blockDescRead => some .brcsize
  | .contentSizeBranch => some .rdhc
  | .checksumRead => some .rdblk
  | .dataBlockRead => some .finish
  | .done => none
  | .error => none

/-- R165's column "errors it can raise". -/
def mayRaise (s : State) (e : ErrCode) : Prop :=
  match s.st with
  | .start => e = .truncatedHeader ∨ e = .invalidMagic
  | .magicRead => e = .truncatedHeader
  | .flagsRead => e = .truncatedHeader
  | .blockDescRead => e = .truncatedHeader ∧ s.flg.getLsbD 3 = true
  | .contentSizeBranch => e = .truncatedHeader
  | .checksumRead => e = .truncatedHeader
  | .dataBlockRead => e = .checksumMismatch ∧ s.strict = true
  | .done => False
  | .error => False

/-- First offset each micro-operation reads (R56); RDHC's hash input starts at 4. -/
def readStart (i : Instr) (s : State) : Nat :=
  match i with
  | .chkmagic => 0
  | .rdflg => 4
  | .rdbd => 5
  | .brcsize => 6
  | .rdhc => 4
  | .rdblk => if s.flg.getLsbD 3 then 15 else 7
  | _ => 0

/-- The end of the range each micro-operation reads, which is its length test (R56, R202); 0 where it reads nothing. -/
def readEnd (i : Instr) (s : State) : Nat :=
  match i with
  | .chkmagic => 4
  | .rdflg => 5
  | .rdbd => 6
  | .brcsize => if s.flg.getLsbD 3 then 14 else 0
  | .rdhc => if s.flg.getLsbD 3 then 15 else 7
  | .rdblk => if s.flg.getLsbD 3 then 19 else 11
  | _ => 0

/-- The report elements of R20 and the flag `CSIZE_VALID` are the same. -/
def SameReport (s t : State) : Prop :=
  t.nread = s.nread ∧ t.magic = s.magic ∧ t.flg = s.flg ∧ t.bd = s.bd ∧ t.csizeValid = s.csizeValid
    ∧ t.csize = s.csize ∧ t.hcStored = s.hcStored ∧ t.hash = s.hash ∧ t.blkFlag = s.blkFlag ∧ t.blkSize = s.blkSize

/-- The move begins a run: a CTRL write with data bit 0 = 1 (START), or a header run as a whole,
which contains START (log 7). -/
def BeginsRun (m : Move) : Prop :=
  (∃ v, m = .write 0 v ∧ v.getLsbD 0 = true) ∨ ∃ bs, m = .header bs

/-- The report of a finished run over a header with the given fields (R36), in format S (`cs = false`) or L. -/
def ReportsFrame (f : FrameFields) (cs : Bool) (contentSize : BitVec 64) (t : State) : Prop :=
  t.magic = 0x184D2204 ∧ t.flgVersion = f.flags.version ∧ t.flgBIndep = f.flags.blockIndependence
    ∧ t.flgBChecksum = f.flags.blockChecksumPresent ∧ t.flgCSize = cs
    ∧ t.flgCChecksum = f.flags.contentChecksumPresent ∧ t.flg.getLsbD 1 = f.flags.reserved
    ∧ t.flgDictId = f.flags.dictionaryIdPresent ∧ t.bd.getLsbD 7 = f.bd.bit7
    ∧ t.bdBlockMaxSize = f.bd.blockMaxSizeCode ∧ t.bd.extractLsb' 0 4 = f.bd.low
    ∧ t.csizeValid = cs ∧ t.csize = contentSize ∧ t.hcStored = f.headerChecksum
    ∧ t.blkFlag = f.blockFlag ∧ t.blkSize = f.blockSize ∧ t.run = false

/-- How a run that read the whole header ends (R160, R168 lines 10 to 12). -/
def EndsByChecksum (t : State) : Prop :=
  t.warnHc = (t.hcStored != t.hash.extractLsb' 8 8)
    ∧ if t.warnHc = true ∧ t.strict = true then t.st = .error ∧ t.err = .checksumMismatch
      else t.st = .done ∧ t.err = .none

/-- The state START leaves, with the host's side empty (R180). -/
def started (strict : Bool) (len : Word) : State :=
  { State.reset with strict := strict, len := len, run := true }

/-- R136's two byte steps and R135's avalanche, written out. -/
def byteStep (h : Word) (b : Byte) : Word :=
  let x := h + b.zeroExtend 32 * 0x165667B1
  ((x <<< 11) ||| (x >>> 21)) * 0x9E3779B1

def wordStep (h w : Word) : Word :=
  let x := h + w * 0xC2B2AE3D
  ((x <<< 17) ||| (x >>> 15)) * 0x27D4EB2F

def finalMix (h : Word) : Word :=
  let a := (h ^^^ (h >>> 15)) * 0x85EBCA77
  let b := (a ^^^ (a >>> 13)) * 0xC2B2AE3D
  b ^^^ (b >>> 16)

end Sys2Proof.Claims

open Sys2Proof.Claims

/-! ### Encoding -/

/-- Decoding what the encoder writes gives the instruction back, every operand at every value. -/
def Obligations.DecodeEncodeRoundTrip : Prop :=
  ∀ i : Instr, WellFormed i → decode (encode i) = .ok i

/-- A byte string that decodes as a header is the encoding of what it decodes to: no bit of it is dropped. -/
def Obligations.FrameBytesHaveOneReading : Prop :=
  ∀ (bs : List Byte) (i : Instr), decode (.frame bs) = .ok i → WellFormed i ∧ encode i = .frame bs

/-- R70: exactly two formats, told apart by bit 3 of the byte at offset 4, with the fields at the offsets given. -/
def Obligations.HeaderFormatChosenByFlgBit3 : Prop :=
  ∀ (b : Nat → Byte) (n : Nat) (i : Instr),
    decode (.frame ((List.range n).map b)) = .ok i ↔
      4 ≤ n ∧ (b 3 ++ b 2 ++ b 1 ++ b 0 : BitVec 32) = 0x184D2204 ∧
        ((n = 11 ∧ (b 4).getLsbD 3 = false ∧
            i = .frameS ⟨flgFields (b 4), bdFields (b 5), b 6, (b 10).getLsbD 7,
              (b 10 ++ b 9 ++ b 8 ++ b 7 : BitVec 32).extractLsb' 0 31⟩) ∨
         (n = 19 ∧ (b 4).getLsbD 3 = true ∧
            i = .frameL ⟨flgFields (b 4), bdFields (b 5), b 14, (b 18).getLsbD 7,
                (b 18 ++ b 17 ++ b 16 ++ b 15 : BitVec 32).extractLsb' 0 31⟩
              (b 13 ++ b 12 ++ b 11 ++ b 10 ++ b 9 ++ b 8 ++ b 7 ++ b 6 : BitVec 64)))

/-- R84: the state codes, the micro-operation each selects, and none for 7 to 15. -/
def Obligations.StateCodeSelectsMicroOperation : Prop :=
  Selects .start 0 .chkmagic ∧ Selects .magicRead 1 .rdflg ∧ Selects .flagsRead 2 .rdbd
    ∧ Selects .blockDescRead 3 .brcsize ∧ Selects .contentSizeBranch 4 .rdhc ∧ Selects .checksumRead 5 .rdblk
    ∧ Selects .dataBlockRead 6 .finish ∧ SeqState.done.code = 7 ∧ SeqState.error.code = 8
    ∧ ∀ c : BitVec 4, 7 ≤ c.toNat → decode (.uop c) = .error .noMicroOperation

/-- A few words written out from the encodings: R84 codes, the CTRL write 3 (R85), V1 of 95_test_vectors.md (R72). -/
def Obligations.WordsFromTheEncodingTables : Prop :=
  decode (.uop 0b0101) = .ok .rdblk
    ∧ decode (.write 0 0x00000003) = .ok (.start true)
    ∧ decode (.write 0 0x00000002) = .ok (.wrreg 0 2)
    ∧ decode (.frame [0x04, 0x22, 0x4D, 0x18, 0x60, 0x40, 0x82, 0x10, 0x00, 0x00, 0x00])
        = .ok (.frameS ⟨⟨1, true, false, false, false, false⟩, ⟨false, 4, 0⟩, 0x82, false, 16⟩)
    ∧ decode (.frame [0x05, 0x22, 0x4D, 0x18, 0x60, 0x40, 0x82, 0x10, 0x00, 0x00, 0x00]) = .error .invalidMagic

/-- The model's placing of a table row's bits (log 9): the very next step runs the decoded instruction. -/
def Obligations.PlacedTableWordRunsNext : Prop :=
  ∀ (s : State) (nbits w : Nat) (i : Instr), decodeTableWord nbits w = some i →
    step (s.withFetchWord nbits w) = exec i (popMove (s.withFetchWord nbits w))
      ∧ (popMove (s.withFetchWord nbits w)).pending = s.pending

/-! ### The step -/

/-- One step is the decoded instruction applied after the move is taken. Which code is fetched in each case is the
model's choice of how moves are held (log 1): the first pending move, or the parser's when none is pending. -/
def Obligations.StepRunsDecodedInstruction : Prop :=
  (∀ (s : State) (c : Code) (i : Instr), fetch s = some c → decode c = .ok i → step s = exec i (popMove s))
    ∧ (∀ s : State, s.run = true → (s.pending = [] ∨ ∃ r, s.pending = .parserTurn :: r) →
        fetch s = some (.uop s.st.code))
    ∧ (∀ s : State, s.run = false → (s.pending = [] ∨ ∃ r, s.pending = .parserTurn :: r) → fetch s = none)
    ∧ (∀ (s : State) (n : Nat) (v : Word) (r : List Move), s.pending = .write n v :: r → fetch s = some (.write n v))
    ∧ (∀ (s : State) (n : Nat) (r : List Move), s.pending = .read n :: r → fetch s = some (.read n))
    ∧ (∀ (s : State) (r : List Move), s.pending = .reset :: r → fetch s = some .reset)
    ∧ (∀ (s : State) (bs : List Byte) (r : List Move), s.pending = .header bs :: r → fetch s = some (.frame bs))

/-- R165: a step exactly when `RUN = 1`, the micro-operation it is, its next state and the errors it can raise. At
rest nothing changes. The premise `BufReady` is the host's duty of R185 (log 3). -/
def Obligations.SequencerStepTable : Prop :=
  ∀ s : State, s.pending = [] →
    (s.run = false → step s = .next s) ∧
    (s.run = true → terminal s.st = false → BufReady s →
      ∃ i t, assigned s.st = some i ∧ step s = exec i s ∧ exec i s = .next t ∧
        ((t.st = successor s.st ∧ t.err = s.err ∧ t.run = (t.st != .done))
          ∨ (t.st = .error ∧ t.run = false ∧ mayRaise s t.err)))

/-! ### The micro-operations -/

/-- R100, R101. -/
def Obligations.ChkmagicReadsAndComparesMagic : Prop :=
  Selects .start 0 .chkmagic ∧ ∀ s : State,
    (s.len.toNat < 4 → exec .chkmagic s = .next { s with err := .truncatedHeader, st := .error, run := false }) ∧
    ∀ b0 b1 b2 b3 : Byte, 4 ≤ s.len.toNat → readByte s.buf 0 = some b0 → readByte s.buf 1 = some b1 →
      readByte s.buf 2 = some b2 → readByte s.buf 3 = some b3 →
      exec .chkmagic s = .next
        (if (b3 ++ b2 ++ b1 ++ b0 : BitVec 32) = 0x184D2204 then
          { s with magic := b3 ++ b2 ++ b1 ++ b0, nread := 4, st := .magicRead }
        else
          { s with magic := b3 ++ b2 ++ b1 ++ b0, nread := 4, err := .invalidMagic, st := .error, run := false })

/-- R110. -/
def Obligations.RdflgKeepsTheWholeByte : Prop :=
  Selects .magicRead 1 .rdflg ∧ ∀ s : State,
    (s.len.toNat < 5 → exec .rdflg s = .next { s with err := .truncatedHeader, st := .error, run := false }) ∧
    ∀ b : Byte, 5 ≤ s.len.toNat → readByte s.buf 4 = some b →
      exec .rdflg s = .next { s with flg := b, nread := 5, st := .flagsRead }

/-- R114. -/
def Obligations.RdbdKeepsTheWholeByte : Prop :=
  Selects .flagsRead 2 .rdbd ∧ ∀ s : State,
    (s.len.toNat < 6 → exec .rdbd s = .next { s with err := .truncatedHeader, st := .error, run := false }) ∧
    ∀ b : Byte, 6 ≤ s.len.toNat → readByte s.buf 5 = some b →
      exec .rdbd s = .next { s with bd := b, nread := 6, st := .blockDescRead }

/-- R120: both arms. -/
def Obligations.BrcsizeReadsContentSizeWhenPresent : Prop :=
  Selects .blockDescRead 3 .brcsize ∧ ∀ s : State,
    (s.flg.getLsbD 3 = false → exec .brcsize s = .next { s with st := .contentSizeBranch }) ∧
    (s.flg.getLsbD 3 = true → s.len.toNat < 14 →
      exec .brcsize s = .next { s with err := .truncatedHeader, st := .error, run := false }) ∧
    ∀ B : Nat → Byte, s.flg.getLsbD 3 = true → 14 ≤ s.len.toNat →
      (∀ a, 6 ≤ a → a < 14 → readByte s.buf a = some (B a)) →
      exec .brcsize s = .next { s with
        csize := B 13 ++ B 12 ++ B 11 ++ B 10 ++ B 9 ++ B 8 ++ B 7 ++ B 6, csizeValid := true, nread := 14,
        st := .contentSizeBranch }

/-- R130, R131: the stored byte, and `HASH32` of the span from offset 4 up to it, seed 0. -/
def Obligations.RdhcStoresByteAndHashesSpan : Prop :=
  Selects .contentSizeBranch 4 .rdhc ∧ ∀ s : State,
    (s.len.toNat < (if s.flg.getLsbD 3 then 15 else 7) →
      exec .rdhc s = .next { s with err := .truncatedHeader, st := .error, run := false }) ∧
    ∀ B : Nat → Byte,
      (s.flg.getLsbD 3 = false → 7 ≤ s.len.toNat → (∀ a, 4 ≤ a → a < 7 → readByte s.buf a = some (B a)) →
        exec .rdhc s = .next { s with
          hcStored := B 6, hash := hash32 [B 4, B 5] 0, nread := 7, st := .checksumRead }) ∧
      (s.flg.getLsbD 3 = true → 15 ≤ s.len.toNat → (∀ a, 4 ≤ a → a < 15 → readByte s.buf a = some (B a)) →
        exec .rdhc s = .next { s with
          hcStored := B 14
          hash := hash32 [B 4, B 5, B 6, B 7, B 8, B 9, B 10, B 11, B 12, B 13] 0
          nread := 15
          st := .checksumRead })

/-- R150, R153: bit 7 of the fourth byte is the flag, the other 31 bits the size. -/
def Obligations.RdblkSplitsFlagAndSize : Prop :=
  Selects .checksumRead 5 .rdblk ∧ ∀ s : State,
    (s.len.toNat < (if s.flg.getLsbD 3 then 19 else 11) →
      exec .rdblk s = .next { s with err := .truncatedHeader, st := .error, run := false }) ∧
    ∀ (off : Nat) (b0 b1 b2 b3 : Byte), off = (if s.flg.getLsbD 3 then 15 else 7) → off + 4 ≤ s.len.toNat →
      readByte s.buf off = some b0 → readByte s.buf (off + 1) = some b1 → readByte s.buf (off + 2) = some b2 →
      readByte s.buf (off + 3) = some b3 →
      exec .rdblk s = .next { s with
        blkFlag := b3.getLsbD 7, blkSize := (b3 ++ b2 ++ b1 ++ b0 : BitVec 32).extractLsb' 0 31,
        nread := if s.flg.getLsbD 3 then 19 else 11, st := .dataBlockRead }

/-- R151: RDBLK undoes the packing, and `{BLK_FLAG, BLK_SIZE}` is the field as read. -/
def Obligations.RdblkInvertsThePacking : Prop :=
  ∀ (s : State) (f : Bool) (size : BitVec 31) (off : Nat), off = (if s.flg.getLsbD 3 then 15 else 7) →
    off + 4 ≤ s.len.toNat →
    (∀ i, i < 4 → readByte s.buf (off + i)
      = some (BitVec.ofNat 8 ((f.toNat * 2 ^ 31 + size.toNat) / 256 ^ i))) →
    ∃ t, exec .rdblk s = .next t ∧ t.blkFlag = f ∧ t.blkSize = size
      ∧ t.regValue 10 = BitVec.ofNat 32 (f.toNat * 2 ^ 31 + size.toNat)

/-- R160. -/
def Obligations.FinishComparesChecksumBytes : Prop :=
  Selects .dataBlockRead 6 .finish ∧ ∀ s : State,
    (s.hcStored = s.hash.extractLsb' 8 8 →
      exec .finish s = .next { s with warnHc := false, st := .done, run := false }) ∧
    (s.hcStored ≠ s.hash.extractLsb' 8 8 → s.strict = false →
      exec .finish s = .next { s with warnHc := true, st := .done, run := false }) ∧
    (s.hcStored ≠ s.hash.extractLsb' 8 8 → s.strict = true →
      exec .finish s = .next { s with warnHc := true, err := .checksumMismatch, st := .error, run := false })

/-- R202: the length tests, before anything is read, and the only cause of TruncatedHeader. -/
def Obligations.TruncationTestPrecedesTheRead : Prop :=
  ∀ i ∈ uops, ∀ s : State,
    (s.len.toNat < readEnd i s →
      exec i s = .next { s with err := .truncatedHeader, st := .error, run := false }) ∧
    (readEnd i s ≤ s.len.toNat → ∀ t, exec i s = .next t → t.err = .truncatedHeader → s.err = .truncatedHeader)

/-- R206: what the error entry writes, its two exceptions, and no further step. -/
def Obligations.ErrorEntryWritesOnlyItsElements : Prop :=
  ∀ i ∈ uops, ∀ s t : State, s.st ≠ .error → exec i s = .next t → t.st = .error →
    (t = { s with err := .truncatedHeader, st := .error, run := false }
      ∨ (i = .chkmagic ∧ t = { s with
          magic := t.magic, nread := 4, err := .invalidMagic, st := .error, run := false })
      ∨ (i = .finish ∧ t = { s with warnHc := true, err := .checksumMismatch, st := .error, run := false }))
    ∧ (t.pending = [] → step t = .next t)

/-- Who writes what (the "written by" column of R20): the frame of the seven micro-operations; and that RESET leaves
the host's side alone, which is the model's choice (log 10). -/
def Obligations.MicroOperationFrame : Prop :=
  (∀ s t : State, exec .reset s = .next t → t.pending = s.pending ∧ t.replies = s.replies) ∧
  ∀ i ∈ uops, ∀ s t : State, exec i s = .next t →
    t.len = s.len ∧ t.strict = s.strict ∧ t.pending = s.pending ∧ t.replies = s.replies
      ∧ (∀ a, readByte t.buf a = readByte s.buf a)
      ∧ (i ≠ .chkmagic → t.magic = s.magic) ∧ (i ≠ .rdflg → t.flg = s.flg) ∧ (i ≠ .rdbd → t.bd = s.bd)
      ∧ (i ≠ .brcsize → t.csize = s.csize ∧ t.csizeValid = s.csizeValid)
      ∧ (i ≠ .rdhc → t.hcStored = s.hcStored ∧ t.hash = s.hash)
      ∧ (i ≠ .rdblk → t.blkFlag = s.blkFlag ∧ t.blkSize = s.blkSize)
      ∧ (i ≠ .finish → t.warnHc = s.warnHc) ∧ (i = .finish → t.nread = s.nread)
      ∧ (t.st ≠ .error → t.err = s.err) ∧ (t.st ≠ .error → i ≠ .finish → t.run = s.run)

/-- The model's refusal of U4 (log 3): a byte of the range is missing although `LEN` covers it. -/
def Obligations.AbsentByteBelowLenIsRefused : Prop :=
  ∀ i ∈ uops, ∀ s : State, readEnd i s ≤ s.len.toNat →
    (∃ a, readStart i s ≤ a ∧ a < readEnd i s ∧ readByte s.buf a = none) →
    exec i s = .refused .bufferByteAbsent

/-! ### Fields, byte order, hash -/

/-- R52: a read of `n` bytes is their little-endian sum. -/
def Obligations.MemReadIsLittleEndian : Prop :=
  ∀ (m : List Host.Cell) (a n : Nat) (B : Nat → Byte), (∀ i, i < n → readByte m (a + i) = some (B (a + i))) →
    ∃ bs, readBytes m a n = some bs ∧
      leNat bs = ((List.range n).map fun i => 256 ^ i * (B (a + i)).toNat).sum

/-- R111, R112. -/
def Obligations.FlgFieldsAreSlices : Prop :=
  ∀ s : State, s.flgVersion.toNat = s.flg.toNat / 64
    ∧ s.flgBIndep = (s.flg.toNat / 32 % 2 == 1) ∧ s.flgBChecksum = (s.flg.toNat / 16 % 2 == 1)
    ∧ s.flgCSize = (s.flg.toNat / 8 % 2 == 1) ∧ s.flgCChecksum = (s.flg.toNat / 4 % 2 == 1)
    ∧ s.flgDictId = (s.flg.toNat % 2 == 1)

/-- R115. -/
def Obligations.BdFieldIsBits6To4 : Prop :=
  ∀ s : State, s.bdBlockMaxSize.toNat = s.bd.toNat / 16 % 8

/-- R136. The function is the spec's own general-knowledge choice XXH32 (R133, log 6). -/
def Obligations.HashOfTwoBytes : Prop :=
  ∀ flg bd : Byte, hash32 [flg, bd] 0 = finalMix (byteStep (byteStep 0x165667B3 flg) bd)

/-- R137. The function is the spec's own general-knowledge choice XXH32 (R133, log 6). -/
def Obligations.HashOfTenBytes : Prop :=
  ∀ b0 b1 b2 b3 b4 b5 b6 b7 b8 b9 : Byte,
    hash32 [b0, b1, b2, b3, b4, b5, b6, b7, b8, b9] 0 =
      finalMix (byteStep (byteStep
        (wordStep (wordStep 0x165667BB (b3 ++ b2 ++ b1 ++ b0)) (b7 ++ b6 ++ b5 ++ b4)) b8) b9)

/-- R139's check values; XXH32 is the spec's own general-knowledge choice (log 6). -/
def Obligations.HashCheckValues : Prop :=
  hash32 [] 0 = 0x02CC5D05 ∧ hash32 [0x61] 0 = 0x550D7456 ∧ hash32 [0x61, 0x62, 0x63] 0 = 0x32D153FF
    ∧ hash32 [0x64, 0x40] 0 = 0x95C0A77C ∧ hash32 [0x60, 0x40] 0 = 0x301A8268
    ∧ hash32 [0x64, 0x70] 0 = 0xBB36B9B7 ∧ hash32 [0x60, 0x70] 0 = 0x789F73AA

/-- R140: bits 15:8, the second byte of the little-endian encoding. -/
def Obligations.ReportingByteIsSecondLowest : Prop :=
  ∀ s : State, s.hcCalc.toNat = s.hash.toNat / 256 % 256 ∧ (leBytes 4 s.hash.toNat)[1]? = some s.hcCalc

/-! ### The host's operations -/

/-- R180: how START is issued, what it does when accepted, and that it is accepted only when `RUN = 0`. -/
def Obligations.StartClearsAndRuns : Prop :=
  (∀ v : Word, v.getLsbD 0 = true → decode (.write 0 v) = .ok (.start (v.getLsbD 1))) ∧
  ∀ (s : State) (strict : Bool),
    (s.run = false → exec (.start strict) s = .next { s with
      strict := strict, err := .none, warnHc := false, csizeValid := false, nread := 0, magic := 0, flg := 0, bd := 0,
      csize := 0, hcStored := 0, hash := 0, blkFlag := false, blkSize := 0, st := .start, run := true }) ∧
    (s.run = true → exec (.start strict) s = .next s)

/-- R182: CTRL and LEN writes during a run are ignored as a whole; a step that ends a run is the parser's own, reset,
or a header move, which waits for that end (log 7). -/
def Obligations.CommandsIgnoredWhileRunning : Prop :=
  (∀ (s : State) (v : Word) (r : List Move), s.run = true →
    (s.pending = .write 0 v :: r → step s = .next { s with pending := r }) ∧
    (s.pending = .write 1 v :: r → step s = .next { s with pending := r })) ∧
  ∀ s t : State, s.run = true → step s = .next t → t.run = false →
    s.pending = [] ∨ (∃ r, s.pending = .parserTurn :: r) ∨ (∃ r, s.pending = .reset :: r)
      ∨ ∃ bs r, s.pending = .header bs :: r

/-- R183, every number and every value; a CTRL write with data bit 0 = 1 is what START does. -/
def Obligations.WrregWritesCtrlAndLenOnly : Prop :=
  ∀ (s : State) (n : Nat) (v : Word),
    (n = 0 → s.run = false → v.getLsbD 0 = false →
      exec (.wrreg n v) s = .next { s with strict := v.getLsbD 1 }) ∧
    (n = 0 → s.run = false → v.getLsbD 0 = true → exec (.wrreg n v) s = exec (.start (v.getLsbD 1)) s) ∧
    (n = 1 → s.run = false → exec (.wrreg n v) s = .next { s with len := v }) ∧
    ((n ≤ 1 ∧ s.run = true) ∨ 2 ≤ n → exec (.wrreg n v) s = .next s)

/-- R184 with the layouts of R40 to R43, as arithmetic; the value goes to the host and nothing else changes. The
list `replies` is the model's own way to hold what the host was given (log 8). -/
def Obligations.RdregReturnsTheRegister : Prop :=
  ∀ (s : State) (n : Nat), ∃ w : Word,
    exec (.rdreg n) s = .next { s with replies := w :: s.replies } ∧
      w.toNat = match n with
        | 0 => 2 * s.strict.toNat
        | 1 => s.len.toNat
        | 2 => s.st.code.toNat + 16 * s.run.toNat + 32 * (s.st == .done).toNat + 64 * (s.st == .error).toNat
            + 128 * s.warnHc.toNat + 256 * s.err.code.toNat + 2048 * s.csizeValid.toNat
        | 3 => s.nread.toNat
        | 4 => s.magic.toNat
        | 5 => s.flg.toNat + 256 * s.bd.toNat
        | 6 => s.csize.toNat % 2 ^ 32
        | 7 => s.csize.toNat / 2 ^ 32
        | 8 => s.hcStored.toNat + 256 * (s.hash.toNat / 256 % 256)
        | 9 => s.hash.toNat
        | 10 => s.blkSize.toNat + 2 ^ 31 * s.blkFlag.toNat
        | _ => 0

/-- R230: from any state, also during a run, every element 0; every register then reads 0; the buffer untouched. -/
def Obligations.ResetInputClearsEveryElement : Prop :=
  ∀ s : State, ∃ t, exec .reset s = .next t ∧ t.st = .start ∧ t.run = false ∧ t.strict = false ∧ t.len = 0
    ∧ t.err = .none ∧ t.warnHc = false ∧ t.csizeValid = false ∧ t.nread = 0 ∧ t.magic = 0 ∧ t.flg = 0 ∧ t.bd = 0
    ∧ t.csize = 0 ∧ t.hcStored = 0 ∧ t.hash = 0 ∧ t.blkFlag = false ∧ t.blkSize = 0
    ∧ (∀ n, t.regValue n = 0) ∧ ∀ a, readByte t.buf a = readByte s.buf a

/-- R211: the two outputs mirror STATUS bits 5 and 6, which mirror `ST`. -/
def Obligations.OutputsMirrorStatus : Prop :=
  ∀ s : State, s.doneO = s.statusReg.getLsbD 5 ∧ (s.doneO = true ↔ s.st = .done)
    ∧ s.errorO = s.statusReg.getLsbD 6 ∧ (s.errorO = true ↔ s.st = .error)

/-- The host fills the buffer at rest (R236 step 2): the bytes read back, every other offset and the block are as
before. `Move.fill` is the model's form of it (log 1). -/
def Obligations.FillThenReadBack : Prop :=
  ∀ (s : State) (a : Nat) (bs : List Byte) (r : List Move), s.pending = .fill a bs :: r → s.run = false →
    ∃ t, step s = .next t ∧ blockOf t = blockOf s ∧ t.pending = r ∧ t.replies = s.replies
      ∧ (∀ i, i < bs.length → readByte t.buf (a + i) = bs[i]?)
      ∧ ∀ b, b < a ∨ a + bs.length ≤ b → readByte t.buf b = readByte s.buf b

/-- The model's refusal of U3 (log 4): during a run a change within `[0, 19)` is refused, one from 19 on is not. -/
def Obligations.BufferChangeDuringRunIsRefused : Prop :=
  ∀ (s : State) (a : Nat) (bs : List Byte) (r : List Move), s.pending = .fill a bs :: r → s.run = true →
    ((∃ i, i < bs.length ∧ a + i < 19 ∧ readByte s.buf (a + i) ≠ bs[i]?) → step s = .refused .bufferChangedDuringRun)
    ∧ (19 ≤ a → ∃ t, step s = .next t ∧ blockOf t = blockOf s
        ∧ (∀ i, i < bs.length → readByte t.buf (a + i) = bs[i]?)
        ∧ ∀ b, b < 19 → readByte t.buf b = readByte s.buf b)

/-! ### The header formats as runs (log 7) -/

/-- FRAME.S from rest: the report of R36 with `NREAD = 11`, the hash over the two descriptor bytes. That a header is
run as a whole, with `STRICT` as it stands, is the model's choice (log 7). -/
def Obligations.FrameSRunsToItsReport : Prop :=
  ∀ (f : FrameFields) (s : State), s.run = false →
    ∃ t, exec (.frameS f) s = .next t ∧ ReportsFrame f false 0 t ∧ EndsByChecksum t ∧ t.nread = 11
      ∧ t.hash = hash32 [t.flg, t.bd] 0 ∧ t.len = 11 ∧ t.strict = s.strict
      ∧ t.pending = s.pending ∧ t.replies = s.replies
      ∧ (∀ bs, encode (.frameS f) = .frame bs → ∀ a, a < 11 → readByte t.buf a = bs[a]?)
      ∧ ∀ a, 11 ≤ a → readByte t.buf a = readByte s.buf a

/-- FRAME.L from rest: the report with `NREAD = 19`, the content size, the hash over ten bytes (log 7). -/
def Obligations.FrameLRunsToItsReport : Prop :=
  ∀ (f : FrameFields) (contentSize : BitVec 64) (s : State), s.run = false →
    ∃ t, exec (.frameL f contentSize) s = .next t ∧ ReportsFrame f true contentSize t ∧ EndsByChecksum t
      ∧ t.nread = 19 ∧ t.hash = hash32 (t.flg :: t.bd :: leBytes 8 contentSize.toNat) 0 ∧ t.len = 19
      ∧ t.strict = s.strict ∧ t.pending = s.pending ∧ t.replies = s.replies
      ∧ (∀ bs, encode (.frameL f contentSize) = .frame bs → ∀ a, a < 19 → readByte t.buf a = bs[a]?)
      ∧ ∀ a, 19 ≤ a → readByte t.buf a = readByte s.buf a

/-- While a run is in progress a header first waits for its end (R236 step 1; log 7). -/
def Obligations.FrameWaitsForTheRunInProgress : Prop :=
  ∀ s : State, BlockInv s → BufReady s → s.run = true →
    ∃ u, runParser 7 s = .next u ∧ u.run = false ∧ (∀ f, exec (.frameS f) s = exec (.frameS f) u)
      ∧ ∀ f c, exec (.frameL f c) s = exec (.frameL f c) u

/-- A header move over any byte string, header or not, ends as R168's table says (log 7). -/
def Obligations.HeaderMoveFollowsTheTable : Prop :=
  ∀ (s : State) (bs : List Byte) (r : List Move) (B : Nat → Byte), s.pending = .header bs :: r → s.run = false →
    (∀ i, i < bs.length → bs[i]? = some (B i)) →
    ∃ t, step s = .next t ∧ t.pending = r ∧ t.replies = s.replies
      ∧ blockOf t = blockOf (parseEnd B (started s.strict (BitVec.ofNat 32 (min bs.length (2 ^ 32 - 1))))).2
      ∧ (∀ i, i < bs.length → readByte t.buf i = bs[i]?)
      ∧ ∀ b, bs.length ≤ b → readByte t.buf b = readByte s.buf b

/-- R88, R236: `PARSE buf, strict` is the host's sequence of single moves, START with the operand; with a run in
progress the host first waits. Which order the report is read in, 2 to 10, is the model's choice (log 23). -/
def Obligations.ParseExpandsToTheHostSequence : Prop :=
  ∀ (s : State) (bs : List Byte) (strict : Bool) (r : List Move), s.pending = .parse bs strict :: r →
    ∃ (t : State) (startData : Word), step s = .next t ∧ t = { s with pending := t.pending }
      ∧ decode (.write 0 startData) = .ok (.start strict)
      ∧ t.pending = (if s.run then [Move.pollStatus] else []) ++
        [.fill 0 bs, .write 1 (BitVec.ofNat 32 (min bs.length (2 ^ 32 - 1))), .write 0 startData, .pollStatus,
          .read 2, .read 3, .read 4, .read 5, .read 6, .read 7, .read 8, .read 9, .read 10] ++ r

/-- "repeat `RDREG STATUS` until bit 4 (`RUN`) reads 0" (R88): the wait reads STATUS, and goes on as long as `RUN` is
1. That one parser turn lies between two reads is the model's choice (log 23). -/
def Obligations.WaitReadsStatusUntilRunFalls : Prop :=
  ∀ (s : State) (r : List Move), s.pending = .pollStatus :: r →
    step s = .next { s with
        replies := s.statusReg :: s.replies, pending := if s.run then .parserTurn :: .pollStatus :: r else r }
      ∧ s.statusReg.getLsbD 4 = s.run

/-- The wait ends with the run it waits for, and does nothing else: within the invariant, with the bytes of the run
provided, its moves are made after some number of steps and the block is where the parser alone takes it (R171). -/
def Obligations.WaitEndsWithTheRun : Prop :=
  ∀ (s : State) (r : List Move), BlockInv s → BufReady s → s.pending = .pollStatus :: r →
    ∃ (k : Nat) (t u : State), runSteps k s = .next t ∧ runParser 7 s = .next u ∧ t.run = false ∧ t.pending = r
      ∧ blockOf t = blockOf u ∧ t.buf = s.buf ∧ ∃ polls, t.replies = t.statusReg :: polls ++ s.replies

/-- PARSE as a whole, from rest, over any byte string and with either strictness: after some number of steps all its
moves are made and the block is in the end state of R168's table; the host was given STATUS with `RUN = 1` once for
each step of the run, then STATUS with `RUN = 0`, then the registers 2 to 10 (log 23). -/
def Obligations.ParseMoveFollowsTheTable : Prop :=
  ∀ (s : State) (bs : List Byte) (strict : Bool) (r : List Move) (B : Nat → Byte),
    s.pending = .parse bs strict :: r → s.run = false → (∀ i, i < bs.length → bs[i]? = some (B i)) →
    ∃ (k : Nat) (t : State) (polls : List Word), runSteps k s = .next t ∧ t.pending = r ∧ t.run = false
      ∧ blockOf t = blockOf (parseEnd B (started strict (BitVec.ofNat 32 (min bs.length (2 ^ 32 - 1))))).2
      ∧ polls.length = (parseEnd B (started strict (BitVec.ofNat 32 (min bs.length (2 ^ 32 - 1))))).1
      ∧ (∀ w ∈ polls, w.getLsbD 4 = true) ∧ t.statusReg.getLsbD 4 = false
      ∧ t.replies = ((([2, 3, 4, 5, 6, 7, 8, 9, 10].map t.regValue).reverse ++ [t.statusReg]) ++ polls) ++ s.replies
      ∧ (∀ i, i < bs.length → readByte t.buf i = bs[i]?)
      ∧ ∀ b, bs.length ≤ b → readByte t.buf b = readByte s.buf b

/-- Parsing the same header twice gives the same block, registers and buffer (R170). -/
def Obligations.ParsingTwiceChangesNothing : Prop :=
  (∀ (f : FrameFields) (s t : State), s.run = false → exec (.frameS f) s = .next t →
    ∃ u, exec (.frameS f) t = .next u ∧ blockOf u = blockOf t ∧ ∀ a, readByte u.buf a = readByte t.buf a) ∧
  ∀ (f : FrameFields) (c : BitVec 64) (s t : State), s.run = false → exec (.frameL f c) s = .next t →
    ∃ u, exec (.frameL f c) t = .next u ∧ blockOf u = blockOf t ∧ ∀ a, readByte u.buf a = readByte t.buf a

/-! ### The whole machine -/

/-- The invariants hold at reset. -/
def Obligations.ResetMeetsTheInvariants : Prop := BlockInv State.reset ∧ Coherent State.reset

/-- R22, R25 to R29, R232 and the canonical buffer, kept by every step. -/
def Obligations.EveryStepKeepsInv : Prop :=
  ∀ s t : State, BlockInv s → step s = .next t → BlockInv t

/-- During a run the report is what the buffer says, as far as the run has got, kept by every step. -/
def Obligations.EveryStepKeepsCoherence : Prop :=
  ∀ s t : State, BlockInv s → Coherent s → step s = .next t → Coherent t

/-- R168 with the step counts: from the state START leaves, step by step. -/
def Obligations.RunFollowsTheParseTable : Prop :=
  ∀ (s : State) (B : Nat → Byte), Cleared s → s.run = true → s.pending = [] →
    (∀ a, a < min s.len.toNat 19 → readByte s.buf a = some (B a)) →
    runSteps (parseEnd B s).1 s = .next (parseEnd B s).2
      ∧ ∀ k, k < (parseEnd B s).1 → ∃ t, runSteps k s = .next t ∧ t.run = true

/-- R171: at most seven steps. -/
def Obligations.RunEndsWithinSevenSteps : Prop :=
  ∀ s : State, BlockInv s → BufReady s → s.run = true → s.pending = [] →
    ∃ k, k ≤ 7 ∧ ∃ t, runSteps k s = .next t ∧ t.run = false

/-- R170: a run depends on the bytes `[0, min(L, 19))`, on `L` (all values from 19 on alike, R24) and on `STRICT`. -/
def Obligations.RunDependsOnlyOnItsInputs : Prop :=
  ∀ (s1 s2 : State) (strict : Bool), s1.run = false → s2.run = false → s1.pending = [] → s2.pending = [] →
    (s1.len = s2.len ∨ (19 ≤ s1.len.toNat ∧ 19 ≤ s2.len.toNat)) →
    (∀ a, a < min s1.len.toNat 19 → ∃ v, readByte s1.buf a = some v ∧ readByte s2.buf a = some v) →
    ∃ u1 u2, exec (.start strict) s1 = .next u1 ∧ exec (.start strict) s2 = .next u2 ∧
      ∀ k, ∃ t1 t2, runSteps k u1 = .next t1
        ∧ runSteps k u2 = .next t2
        ∧ blockOf { t1 with len := 0 } = blockOf { t2 with len := 0 }

/-- A host that keeps R185 and R238 never stops the machine. -/
def Obligations.NoStopWhenTheHostKeepsItsDuties : Prop :=
  ∀ s : State, BlockInv s → BufReady s → (∀ a bs r, s.pending = .fill a bs :: r → s.run = false) →
    ∃ t, step s = .next t

/-- R51: only the host's own moves change the buffer. -/
def Obligations.ParserNeverWritesTheBuffer : Prop :=
  ∀ s t : State, step s = .next t →
    (∃ a, readByte t.buf a ≠ readByte s.buf a) →
    (∃ a bs r, s.pending = .fill a bs :: r) ∨ ∃ bs r, s.pending = .header bs :: r

/-- R23, R24: constant during a run, but for reset (and a header move, which first ends the
run, log 7). -/
def Obligations.LenAndStrictConstantDuringRun : Prop :=
  ∀ s t : State, step s = .next t → s.run = true → t.len ≠ s.len ∨ t.strict ≠ s.strict →
    (∃ r, s.pending = .reset :: r) ∨ ∃ bs r, s.pending = .header bs :: r

/-- R212: `Error` is left only by START, which clears `ERR`, or by reset. -/
def Obligations.ErrorLeftOnlyByStartOrReset : Prop :=
  ∀ s t : State, s.st = .error → s.run = false → step s = .next t → t.st ≠ .error →
    (∃ v r, s.pending = .write 0 v :: r ∧ v.getLsbD 0 = true ∧ t.st = .start ∧ t.run = true ∧ t.err = .none)
      ∨ (∃ r, s.pending = .reset :: r ∧ t.st = .start ∧ t.run = false ∧ t.err = .none)
      ∨ ∃ bs r, s.pending = .header bs :: r

/-- R161: FINISH moves no data, and after the run nothing writes the report until the next START or reset. -/
def Obligations.ReportStandsUntilStartOrReset : Prop :=
  (∀ s t : State, exec .finish s = .next t → SameReport s t) ∧
  ∀ s t : State, s.run = false → step s = .next t →
    SameReport s t ∨ (∃ r, s.pending = .reset :: r) ∨ ∃ m r, s.pending = m :: r ∧ BeginsRun m

/-- "No other STATUS value is reachable" (95_test_vectors.md section 6). -/
def Obligations.StatusTakesTwentyValues : Prop :=
  ∀ s : State, BlockInv s → s.statusReg ∈
    ([0x00, 0x10, 0x11, 0x12, 0x13, 0x14, 0x814, 0x15, 0x815, 0x16, 0x816, 0x27, 0x827, 0xA7, 0x8A7, 0x148, 0x248,
      0xA48, 0x3C8, 0xBC8] : List Word)
end

