-- ==== Sys2Proof/Laws/Memory.lean ====
section
/-! SUPPORT. The buffer: read after write, writes elsewhere, and the canonical form kept by every operation. -/

namespace Sys2Proof.Machine

theorem readByte_writeByte (m : List Host.Cell) (a b : Nat) (v : Byte) :
    readByte (writeByte m a v) b = if b = a then some v else readByte m b := by
  induction m with
  | nil => by_cases h : a = b <;> simp [writeByte, readByte, h, eq_comm]
  | cons c m ih =>
    unfold writeByte
    split
    · by_cases h : a = b <;> simp [readByte, h, eq_comm]
    · split
      · subst a
        by_cases h : c.1 = b
        · simp [readByte, h]
        · simp [readByte, h, Ne.symm h]
      · rename_i h2
        by_cases h3 : c.1 = b
        · subst h3
          simp [readByte, Ne.symm h2]
        · simp [readByte, h3, ih]

theorem readByte_writeBytes (m : List Host.Cell) (a b : Nat) (bs : List Byte) :
    readByte (writeBytes m a bs) b = if a ≤ b ∧ b < a + bs.length then bs[b - a]? else readByte m b := by
  induction bs generalizing m a with
  | nil => simp [writeBytes]
  | cons v bs ih =>
    rw [writeBytes, ih, readByte_writeByte]
    by_cases h0 : b = a
    · subst h0; simp
    · by_cases h1 : a ≤ b ∧ b < a + (v :: bs).length
      · have h2 : a + 1 ≤ b ∧ b < a + 1 + bs.length := by simp at h1; omega
        rw [if_pos h2, if_pos h1, show b - a = (b - (a + 1)) + 1 by omega, List.getElem?_cons_succ]
      · have h2 : ¬(a + 1 ≤ b ∧ b < a + 1 + bs.length) := by simp at h1; omega
        rw [if_neg h2, if_neg h0, if_neg h1]

theorem readBytes_length {m : List Host.Cell} {a n : Nat} {bs : List Byte} (h : readBytes m a n = some bs) :
    bs.length = n := by
  induction n generalizing a bs with
  | zero => simp [readBytes] at h; simp [← h]
  | succ n ih =>
    unfold readBytes at h
    split at h
    · rename_i b bs' _ hb
      cases h
      simp [ih hb]
    · cases h

/-- A range read gives the bytes, when every one of them is there. -/
theorem readBytes_of_bytes {m : List Host.Cell} {B : Nat → Byte} {a n : Nat}
    (h : ∀ i, i < n → readByte m (a + i) = some (B (a + i))) :
    readBytes m a n = some ((List.range' a n).map B) := by
  induction n generalizing a with
  | zero => rfl
  | succ n ih =>
    have h0 := h 0 (by omega)
    have hr : readBytes m (a + 1) n = some ((List.range' (a + 1) n).map B) :=
      ih fun i hi => by
      have := h (i + 1) (by omega)
      rwa [show a + (i + 1) = a + 1 + i by omega] at this
    rw [readBytes, hr, show readByte m a = some (B a) from h0]
    simp [List.range'_succ]

theorem readBytes_one {m : List Host.Cell} {a : Nat} {bs : List Byte} (h : readBytes m a 1 = some bs) :
    ∃ b, readByte m a = some b ∧ bs = [b] := by
  simp only [readBytes] at h
  split at h
  · rename_i b bs' hb hbs
    injection hbs with hbs
    injection h with h
    exact ⟨b, hb, by rw [← h, ← hbs]⟩
  · cases h

theorem ofNat_leNat_one (b : Byte) : BitVec.ofNat 8 (leNat [b]) = b := by
  apply BitVec.eq_of_toNat_eq
  simp [leNat]

/-- A range read depends on the bytes of the range only. -/
theorem readBytes_congr {m m' : List Host.Cell} {a n : Nat}
    (h : ∀ b, a ≤ b → b < a + n → readByte m' b = readByte m b) : readBytes m' a n = readBytes m a n := by
  induction n generalizing a with
  | zero => rfl
  | succ n ih =>
    rw [readBytes, readBytes, h a (by omega) (by omega), ih fun b h1 h2 => h b (by omega) (by omega)]

theorem mem_writeByte {m : List Host.Cell} {a : Nat} {v : Byte} {c : Host.Cell} (h : c ∈ writeByte m a v) :
    c = (a, v) ∨ c ∈ m := by
  induction m with
  | nil => simp [writeByte] at h; exact .inl h
  | cons d m ih =>
    unfold writeByte at h
    split at h
    · simpa using h
    · split at h
      · rcases List.mem_cons.1 h with h | h
        · exact .inl h
        · exact .inr (List.mem_cons_of_mem _ h)
      · rcases List.mem_cons.1 h with h | h
        · exact .inr (h ▸ List.mem_cons_self)
        · exact (ih h).imp id (List.mem_cons_of_mem _)

theorem writeByte_wf {m : List Host.Cell} (h : Memory.wf m) (a : Nat) (v : Byte) : Memory.wf (writeByte m a v) := by
  induction m with
  | nil => simp [writeByte, Memory.wf]
  | cons c m ih =>
    obtain ⟨hc, hm⟩ := List.pairwise_cons.1 h
    unfold writeByte
    split
    · rename_i hlt
      refine List.pairwise_cons.2 ⟨fun d hd => ?_, h⟩
      rcases List.mem_cons.1 hd with hd | hd
      · rw [hd]; exact hlt
      · exact Nat.lt_trans hlt (hc d hd)
    · split
      · rename_i heq
        exact List.pairwise_cons.2 ⟨fun d hd => by simpa only [heq] using hc d hd, hm⟩
      · refine List.pairwise_cons.2 ⟨fun d hd => ?_, ih hm⟩
        rcases mem_writeByte hd with rfl | hd
        · simp only; omega
        · exact hc d hd

/-- Every memory operation keeps the canonical form; `writeByte` and this are all of them that write. -/
theorem writeBytes_wf {m : List Host.Cell} (h : Memory.wf m) (a : Nat) (bs : List Byte) :
    Memory.wf (writeBytes m a bs) := by
  induction bs generalizing m a with
  | nil => exact h
  | cons b bs ih => exact ih (writeByte_wf h a b) (a + 1)

theorem reset_buf_wf : Memory.wf State.reset.buf := List.Pairwise.nil

end Sys2Proof.Machine
end

