-- ==== Sys2Proof/Laws/State.lean ====
section
/-! SUPPORT. One lemma per field per named update of State, so that no proof unfolds a record update. -/

namespace Sys2Proof.Machine

/-! ### raise -/

@[simp] theorem raise_st (e : ErrCode) (s : State) : (raise e s).st = .error := rfl
@[simp] theorem raise_run (e : ErrCode) (s : State) : (raise e s).run = false := rfl
@[simp] theorem raise_strict (e : ErrCode) (s : State) : (raise e s).strict = s.strict := rfl
@[simp] theorem raise_len (e : ErrCode) (s : State) : (raise e s).len = s.len := rfl
@[simp] theorem raise_err (e : ErrCode) (s : State) : (raise e s).err = e := rfl
@[simp] theorem raise_warnHc (e : ErrCode) (s : State) : (raise e s).warnHc = s.warnHc := rfl
@[simp] theorem raise_csizeValid (e : ErrCode) (s : State) : (raise e s).csizeValid = s.csizeValid := rfl
@[simp] theorem raise_nread (e : ErrCode) (s : State) : (raise e s).nread = s.nread := rfl
@[simp] theorem raise_magic (e : ErrCode) (s : State) : (raise e s).magic = s.magic := rfl
@[simp] theorem raise_flg (e : ErrCode) (s : State) : (raise e s).flg = s.flg := rfl
@[simp] theorem raise_bd (e : ErrCode) (s : State) : (raise e s).bd = s.bd := rfl
@[simp] theorem raise_csize (e : ErrCode) (s : State) : (raise e s).csize = s.csize := rfl
@[simp] theorem raise_hcStored (e : ErrCode) (s : State) : (raise e s).hcStored = s.hcStored := rfl
@[simp] theorem raise_hash (e : ErrCode) (s : State) : (raise e s).hash = s.hash := rfl
@[simp] theorem raise_blkFlag (e : ErrCode) (s : State) : (raise e s).blkFlag = s.blkFlag := rfl
@[simp] theorem raise_blkSize (e : ErrCode) (s : State) : (raise e s).blkSize = s.blkSize := rfl
@[simp] theorem raise_buf (e : ErrCode) (s : State) : (raise e s).buf = s.buf := rfl
@[simp] theorem raise_pending (e : ErrCode) (s : State) : (raise e s).pending = s.pending := rfl
@[simp] theorem raise_replies (e : ErrCode) (s : State) : (raise e s).replies = s.replies := rfl

/-! ### beginRun -/

@[simp] theorem beginRun_st (b : Bool) (s : State) : (beginRun b s).st = .start := rfl
@[simp] theorem beginRun_run (b : Bool) (s : State) : (beginRun b s).run = true := rfl
@[simp] theorem beginRun_strict (b : Bool) (s : State) : (beginRun b s).strict = b := rfl
@[simp] theorem beginRun_len (b : Bool) (s : State) : (beginRun b s).len = s.len := rfl
@[simp] theorem beginRun_err (b : Bool) (s : State) : (beginRun b s).err = .none := rfl
@[simp] theorem beginRun_warnHc (b : Bool) (s : State) : (beginRun b s).warnHc = false := rfl
@[simp] theorem beginRun_csizeValid (b : Bool) (s : State) : (beginRun b s).csizeValid = false := rfl
@[simp] theorem beginRun_nread (b : Bool) (s : State) : (beginRun b s).nread = 0 := rfl
@[simp] theorem beginRun_magic (b : Bool) (s : State) : (beginRun b s).magic = 0 := rfl
@[simp] theorem beginRun_flg (b : Bool) (s : State) : (beginRun b s).flg = 0 := rfl
@[simp] theorem beginRun_bd (b : Bool) (s : State) : (beginRun b s).bd = 0 := rfl
@[simp] theorem beginRun_csize (b : Bool) (s : State) : (beginRun b s).csize = 0 := rfl
@[simp] theorem beginRun_hcStored (b : Bool) (s : State) : (beginRun b s).hcStored = 0 := rfl
@[simp] theorem beginRun_hash (b : Bool) (s : State) : (beginRun b s).hash = 0 := rfl
@[simp] theorem beginRun_blkFlag (b : Bool) (s : State) : (beginRun b s).blkFlag = false := rfl
@[simp] theorem beginRun_blkSize (b : Bool) (s : State) : (beginRun b s).blkSize = 0 := rfl
@[simp] theorem beginRun_buf (b : Bool) (s : State) : (beginRun b s).buf = s.buf := rfl
@[simp] theorem beginRun_pending (b : Bool) (s : State) : (beginRun b s).pending = s.pending := rfl
@[simp] theorem beginRun_replies (b : Bool) (s : State) : (beginRun b s).replies = s.replies := rfl

/-! ### resetBlock -/

@[simp] theorem resetBlock_st (s : State) : (resetBlock s).st = .start := rfl
@[simp] theorem resetBlock_run (s : State) : (resetBlock s).run = false := rfl
@[simp] theorem resetBlock_strict (s : State) : (resetBlock s).strict = false := rfl
@[simp] theorem resetBlock_len (s : State) : (resetBlock s).len = 0 := rfl
@[simp] theorem resetBlock_err (s : State) : (resetBlock s).err = .none := rfl
@[simp] theorem resetBlock_warnHc (s : State) : (resetBlock s).warnHc = false := rfl
@[simp] theorem resetBlock_csizeValid (s : State) : (resetBlock s).csizeValid = false := rfl
@[simp] theorem resetBlock_nread (s : State) : (resetBlock s).nread = 0 := rfl
@[simp] theorem resetBlock_magic (s : State) : (resetBlock s).magic = 0 := rfl
@[simp] theorem resetBlock_flg (s : State) : (resetBlock s).flg = 0 := rfl
@[simp] theorem resetBlock_bd (s : State) : (resetBlock s).bd = 0 := rfl
@[simp] theorem resetBlock_csize (s : State) : (resetBlock s).csize = 0 := rfl
@[simp] theorem resetBlock_hcStored (s : State) : (resetBlock s).hcStored = 0 := rfl
@[simp] theorem resetBlock_hash (s : State) : (resetBlock s).hash = 0 := rfl
@[simp] theorem resetBlock_blkFlag (s : State) : (resetBlock s).blkFlag = false := rfl
@[simp] theorem resetBlock_blkSize (s : State) : (resetBlock s).blkSize = 0 := rfl
@[simp] theorem resetBlock_buf (s : State) : (resetBlock s).buf = s.buf := rfl
@[simp] theorem resetBlock_pending (s : State) : (resetBlock s).pending = s.pending := rfl
@[simp] theorem resetBlock_replies (s : State) : (resetBlock s).replies = s.replies := rfl

/-! ### popMove -/

@[simp] theorem popMove_st (s : State) : (popMove s).st = s.st := rfl
@[simp] theorem popMove_run (s : State) : (popMove s).run = s.run := rfl
@[simp] theorem popMove_strict (s : State) : (popMove s).strict = s.strict := rfl
@[simp] theorem popMove_len (s : State) : (popMove s).len = s.len := rfl
@[simp] theorem popMove_err (s : State) : (popMove s).err = s.err := rfl
@[simp] theorem popMove_warnHc (s : State) : (popMove s).warnHc = s.warnHc := rfl
@[simp] theorem popMove_csizeValid (s : State) : (popMove s).csizeValid = s.csizeValid := rfl
@[simp] theorem popMove_nread (s : State) : (popMove s).nread = s.nread := rfl
@[simp] theorem popMove_magic (s : State) : (popMove s).magic = s.magic := rfl
@[simp] theorem popMove_flg (s : State) : (popMove s).flg = s.flg := rfl
@[simp] theorem popMove_bd (s : State) : (popMove s).bd = s.bd := rfl
@[simp] theorem popMove_csize (s : State) : (popMove s).csize = s.csize := rfl
@[simp] theorem popMove_hcStored (s : State) : (popMove s).hcStored = s.hcStored := rfl
@[simp] theorem popMove_hash (s : State) : (popMove s).hash = s.hash := rfl
@[simp] theorem popMove_blkFlag (s : State) : (popMove s).blkFlag = s.blkFlag := rfl
@[simp] theorem popMove_blkSize (s : State) : (popMove s).blkSize = s.blkSize := rfl
@[simp] theorem popMove_buf (s : State) : (popMove s).buf = s.buf := rfl
@[simp] theorem popMove_pending (s : State) : (popMove s).pending = s.pending.tail := rfl
@[simp] theorem popMove_replies (s : State) : (popMove s).replies = s.replies := rfl

/-! ### returnWord -/

@[simp] theorem returnWord_st (v : Word) (s : State) : (returnWord v s).st = s.st := rfl
@[simp] theorem returnWord_run (v : Word) (s : State) : (returnWord v s).run = s.run := rfl
@[simp] theorem returnWord_strict (v : Word) (s : State) : (returnWord v s).strict = s.strict := rfl
@[simp] theorem returnWord_len (v : Word) (s : State) : (returnWord v s).len = s.len := rfl
@[simp] theorem returnWord_err (v : Word) (s : State) : (returnWord v s).err = s.err := rfl
@[simp] theorem returnWord_warnHc (v : Word) (s : State) : (returnWord v s).warnHc = s.warnHc := rfl
@[simp] theorem returnWord_csizeValid (v : Word) (s : State) : (returnWord v s).csizeValid = s.csizeValid := rfl
@[simp] theorem returnWord_nread (v : Word) (s : State) : (returnWord v s).nread = s.nread := rfl
@[simp] theorem returnWord_magic (v : Word) (s : State) : (returnWord v s).magic = s.magic := rfl
@[simp] theorem returnWord_flg (v : Word) (s : State) : (returnWord v s).flg = s.flg := rfl
@[simp] theorem returnWord_bd (v : Word) (s : State) : (returnWord v s).bd = s.bd := rfl
@[simp] theorem returnWord_csize (v : Word) (s : State) : (returnWord v s).csize = s.csize := rfl
@[simp] theorem returnWord_hcStored (v : Word) (s : State) : (returnWord v s).hcStored = s.hcStored := rfl
@[simp] theorem returnWord_hash (v : Word) (s : State) : (returnWord v s).hash = s.hash := rfl
@[simp] theorem returnWord_blkFlag (v : Word) (s : State) : (returnWord v s).blkFlag = s.blkFlag := rfl
@[simp] theorem returnWord_blkSize (v : Word) (s : State) : (returnWord v s).blkSize = s.blkSize := rfl
@[simp] theorem returnWord_buf (v : Word) (s : State) : (returnWord v s).buf = s.buf := rfl
@[simp] theorem returnWord_pending (v : Word) (s : State) : (returnWord v s).pending = s.pending := rfl
@[simp] theorem returnWord_replies (v : Word) (s : State) : (returnWord v s).replies = v :: s.replies := rfl

/-! ### setContentSize -/

@[simp] theorem setContentSize_st (v : BitVec 64) (s : State) : (setContentSize v s).st = s.st := rfl
@[simp] theorem setContentSize_run (v : BitVec 64) (s : State) : (setContentSize v s).run = s.run := rfl
@[simp] theorem setContentSize_strict (v : BitVec 64) (s : State) : (setContentSize v s).strict = s.strict := rfl
@[simp] theorem setContentSize_len (v : BitVec 64) (s : State) : (setContentSize v s).len = s.len := rfl
@[simp] theorem setContentSize_err (v : BitVec 64) (s : State) : (setContentSize v s).err = s.err := rfl
@[simp] theorem setContentSize_warnHc (v : BitVec 64) (s : State) : (setContentSize v s).warnHc = s.warnHc := rfl
@[simp] theorem setContentSize_csizeValid (v : BitVec 64) (s : State) : (setContentSize v s).csizeValid = true := rfl
@[simp] theorem setContentSize_nread (v : BitVec 64) (s : State) : (setContentSize v s).nread = s.nread := rfl
@[simp] theorem setContentSize_magic (v : BitVec 64) (s : State) : (setContentSize v s).magic = s.magic := rfl
@[simp] theorem setContentSize_flg (v : BitVec 64) (s : State) : (setContentSize v s).flg = s.flg := rfl
@[simp] theorem setContentSize_bd (v : BitVec 64) (s : State) : (setContentSize v s).bd = s.bd := rfl
@[simp] theorem setContentSize_csize (v : BitVec 64) (s : State) : (setContentSize v s).csize = v := rfl
@[simp] theorem setContentSize_hcStored (v : BitVec 64) (s : State) : (setContentSize v s).hcStored = s.hcStored := rfl
@[simp] theorem setContentSize_hash (v : BitVec 64) (s : State) : (setContentSize v s).hash = s.hash := rfl
@[simp] theorem setContentSize_blkFlag (v : BitVec 64) (s : State) : (setContentSize v s).blkFlag = s.blkFlag := rfl
@[simp] theorem setContentSize_blkSize (v : BitVec 64) (s : State) : (setContentSize v s).blkSize = s.blkSize := rfl
@[simp] theorem setContentSize_buf (v : BitVec 64) (s : State) : (setContentSize v s).buf = s.buf := rfl
@[simp] theorem setContentSize_pending (v : BitVec 64) (s : State) : (setContentSize v s).pending = s.pending := rfl
@[simp] theorem setContentSize_replies (v : BitVec 64) (s : State) : (setContentSize v s).replies = s.replies := rfl

/-! ### expandParse -/

@[simp] theorem expandParse_st (bs : List Byte) (b : Bool) (s : State) : (expandParse bs b s).st = s.st := rfl
@[simp] theorem expandParse_run (bs : List Byte) (b : Bool) (s : State) : (expandParse bs b s).run = s.run := rfl
@[simp] theorem expandParse_strict (bs : List Byte) (b : Bool) (s : State) : (expandParse bs b s).strict = s.strict := rfl
@[simp] theorem expandParse_len (bs : List Byte) (b : Bool) (s : State) : (expandParse bs b s).len = s.len := rfl
@[simp] theorem expandParse_err (bs : List Byte) (b : Bool) (s : State) : (expandParse bs b s).err = s.err := rfl
@[simp] theorem expandParse_warnHc (bs : List Byte) (b : Bool) (s : State) : (expandParse bs b s).warnHc = s.warnHc := rfl
@[simp] theorem expandParse_csizeValid (bs : List Byte) (b : Bool) (s : State) : (expandParse bs b s).csizeValid = s.csizeValid := rfl
@[simp] theorem expandParse_nread (bs : List Byte) (b : Bool) (s : State) : (expandParse bs b s).nread = s.nread := rfl
@[simp] theorem expandParse_magic (bs : List Byte) (b : Bool) (s : State) : (expandParse bs b s).magic = s.magic := rfl
@[simp] theorem expandParse_flg (bs : List Byte) (b : Bool) (s : State) : (expandParse bs b s).flg = s.flg := rfl
@[simp] theorem expandParse_bd (bs : List Byte) (b : Bool) (s : State) : (expandParse bs b s).bd = s.bd := rfl
@[simp] theorem expandParse_csize (bs : List Byte) (b : Bool) (s : State) : (expandParse bs b s).csize = s.csize := rfl
@[simp] theorem expandParse_hcStored (bs : List Byte) (b : Bool) (s : State) : (expandParse bs b s).hcStored = s.hcStored := rfl
@[simp] theorem expandParse_hash (bs : List Byte) (b : Bool) (s : State) : (expandParse bs b s).hash = s.hash := rfl
@[simp] theorem expandParse_blkFlag (bs : List Byte) (b : Bool) (s : State) : (expandParse bs b s).blkFlag = s.blkFlag := rfl
@[simp] theorem expandParse_blkSize (bs : List Byte) (b : Bool) (s : State) : (expandParse bs b s).blkSize = s.blkSize := rfl
@[simp] theorem expandParse_buf (bs : List Byte) (b : Bool) (s : State) : (expandParse bs b s).buf = s.buf := rfl
@[simp] theorem expandParse_pending (bs : List Byte) (b : Bool) (s : State) : (expandParse bs b s).pending =
    (if s.run then [.pollStatus] else []) ++ parseMoves bs b ++ s.pending := rfl
@[simp] theorem expandParse_replies (bs : List Byte) (b : Bool) (s : State) : (expandParse bs b s).replies = s.replies := rfl

end Sys2Proof.Machine
end

