-- ==== Sys2Proof/Laws/Ops.lean ====
section
/-! SUPPORT. One lemma per shared operation that says everything it can do. -/

namespace Sys2Proof.Machine

variable {s t : State} {a n : Nat} {k : List Byte → Host.Outcome State Fault Refusal}

/-- `withBytes` answers next only through the bytes of the range. -/
theorem withBytes_next (h : withBytes s a n k = .next t) : ∃ bs, readBytes s.buf a n = some bs ∧ k bs = .next t := by
  unfold withBytes at h
  split at h
  · exact ⟨_, ‹_›, h⟩
  · cases h

theorem withBytes_some {bs : List Byte} (h : readBytes s.buf a n = some bs) : withBytes s a n k = k bs := by
  simp [withBytes, h]

/-- R202: a guarded read either raises TruncatedHeader, writing nothing else, or goes on with the bytes. -/
theorem readField_next (h : readField s a n k = .next t) :
    (s.len.toNat < a + n ∧ t = raise .truncatedHeader s)
      ∨ (a + n ≤ s.len.toNat ∧ ∃ bs, readBytes s.buf a n = some bs ∧ k bs = .next t) := by
  unfold readField at h
  split at h
  · exact .inl ⟨‹_›, by injection h with h; exact h.symm⟩
  · exact .inr ⟨by omega, withBytes_next h⟩

theorem readField_short (h : s.len.toNat < a + n) : readField s a n k = .next (raise .truncatedHeader s) := by
  simp [readField, h]

theorem readField_some {bs : List Byte} (hl : a + n ≤ s.len.toNat) (h : readBytes s.buf a n = some bs) :
    readField s a n k = k bs := by
  simp [readField, Nat.not_lt.2 hl, withBytes_some h]

/-- A host fill changes the buffer and nothing else, and during a run it leaves `[0, 19)` as it was. -/
theorem fillBuffer_next {bs : List Byte} (h : fillBuffer a bs s = .next t) :
    t = { s with buf := writeBytes s.buf a bs } ∧ (s.run = true → windowChanged s.buf t.buf = false) := by
  unfold fillBuffer at h
  split at h
  · cases h
  · rename_i hc
    injection h with h
    subst h
    exact ⟨rfl, fun hr => by simpa [hr] using hc⟩

theorem readByte_of_window {m m' : List Host.Cell} (h : windowChanged m m' = false) {b : Nat} (hb : b < windowLen) :
    readByte m' b = readByte m b := by
  simp only [windowChanged, List.any_eq_false, List.mem_range] at h
  exact (show readByte m b = readByte m' b by simpa using h b hb).symm

/-- The parser's run, one step at a time. -/
theorem runParser_rest (h : s.run = false) (k : Nat) : runParser k s = .next s := by
  cases k <;> simp [runParser, h]

theorem runParser_step (hr : s.run = true) (h : parserStep s = .next t) (k : Nat) :
    runParser (k + 1) s = runParser k t := by
  simp [runParser, hr, h]

/-- An invariant that every parser step of a running block keeps is kept by a whole run. -/
theorem runParser_keeps {P : State → Prop} (hstep : ∀ s t, P s → s.run = true → parserStep s = .next t → P t) :
    ∀ k s t, P s → runParser k s = .next t → P t := by
  intro k
  induction k with
  | zero => intro s t hp h; injection h with h; exact h ▸ hp
  | succ k ih =>
    intro s t hp h
    unfold runParser at h
    split at h
    · split at h
      · exact ih _ _ (hstep _ _ hp ‹_› ‹_›) h
      · cases h
      · cases h
    · injection h with h; exact h ▸ hp

end Sys2Proof.Machine
end

