-- ==== Sys2Proof/Laws/MicroOps.lean ====
section
/-! SUPPORT. One inversion lemma per micro-operation: if it answers a next state, one of these cases holds. -/

namespace Sys2Proof.Machine

variable {s t : State}

theorem flgCSize_eq (s : State) : s.flgCSize = s.flg.getLsbD 3 := rfl

theorem hcOff_eq (cs : Bool) : hcOff cs = if cs then 14 else 6 := by cases cs <;> rfl

theorem blkOff_eq (cs : Bool) : blkOff cs = if cs then 15 else 7 := by cases cs <;> rfl

theorem endOff_eq (cs : Bool) : endOff cs = if cs then 19 else 11 := by cases cs <;> rfl

theorem hashLen_eq (cs : Bool) : hashLen cs = if cs then 10 else 2 := by cases cs <;> rfl

/-- R100. -/
theorem execChkmagic_cases (h : execChkmagic s = .next t) :
    (s.len.toNat < 4 ∧ t = raise .truncatedHeader s)
      ∨ (4 ≤ s.len.toNat ∧ ∃ bs, readBytes s.buf 0 4 = some bs ∧
          ((leWord bs ≠ Config.magicConst ∧ t = raise .invalidMagic { s with magic := leWord bs, nread := 4 })
            ∨ (leWord bs = Config.magicConst ∧ t = { s with magic := leWord bs, nread := 4, st := .magicRead }))) := by
  rcases readField_next h with h | ⟨hl, bs, hb, hk⟩
  · exact .inl h
  · refine .inr ⟨hl, bs, hb, ?_⟩
    injection hk with hk
    by_cases hm : leWord bs = Config.magicConst
    · exact .inr ⟨hm, by simp [← hk, hm]⟩
    · exact .inl ⟨hm, by simp [← hk, hm]⟩

/-- R110. -/
theorem execRdflg_cases (h : execRdflg s = .next t) :
    (s.len.toNat < 5 ∧ t = raise .truncatedHeader s)
      ∨ (5 ≤ s.len.toNat ∧ ∃ b, readByte s.buf 4 = some b ∧ t = { s with flg := b, nread := 5, st := .flagsRead }) := by
  rcases readField_next h with h | ⟨hl, bs, hb, hk⟩
  · exact .inl h
  · obtain ⟨b, hb1, rfl⟩ := readBytes_one hb
    injection hk with hk
    exact .inr ⟨hl, b, hb1, by simp [← hk, ofNat_leNat_one]⟩

/-- R114. -/
theorem execRdbd_cases (h : execRdbd s = .next t) :
    (s.len.toNat < 6 ∧ t = raise .truncatedHeader s)
      ∨ (6 ≤ s.len.toNat ∧ ∃ b, readByte s.buf 5 = some b ∧ t = { s with bd := b, nread := 6, st := .blockDescRead }) := by
  rcases readField_next h with h | ⟨hl, bs, hb, hk⟩
  · exact .inl h
  · obtain ⟨b, hb1, rfl⟩ := readBytes_one hb
    injection hk with hk
    exact .inr ⟨hl, b, hb1, by simp [← hk, ofNat_leNat_one]⟩

/-- R120, the false arm. -/
theorem execBrcsize_absent (h : s.flgCSize = false) : execBrcsize s = .next { s with st := .contentSizeBranch } := by
  simp [execBrcsize, h]

/-- R120, the true arm. -/
theorem execBrcsize_present (h : s.flgCSize = true) :
    execBrcsize s = readField s 6 8 fun bs =>
      .next { s with csize := leDword bs, csizeValid := true, nread := 14, st := .contentSizeBranch } := by
  simp [execBrcsize, h]
  rfl

theorem execBrcsize_cases (h : execBrcsize s = .next t) :
    (s.flgCSize = false ∧ t = { s with st := .contentSizeBranch })
      ∨ (s.flgCSize = true ∧ s.len.toNat < 14 ∧ t = raise .truncatedHeader s)
      ∨ (s.flgCSize = true ∧ 14 ≤ s.len.toNat ∧ ∃ bs, readBytes s.buf 6 8 = some bs ∧
          t = { s with csize := leDword bs, csizeValid := true, nread := 14, st := .contentSizeBranch }) := by
  cases hc : s.flgCSize
  · rw [execBrcsize_absent hc] at h
    injection h with h
    exact .inl ⟨rfl, h.symm⟩
  · rw [execBrcsize_present hc] at h
    rcases readField_next h with ⟨hl, ht⟩ | ⟨hl, bs, hb, hk⟩
    · exact .inr (.inl ⟨rfl, hl, ht⟩)
    · injection hk with hk
      exact .inr (.inr ⟨rfl, hl, bs, hb, hk.symm⟩)

/-- R130. -/
theorem execRdhc_cases (h : execRdhc s = .next t) :
    (s.len.toNat < hcOff s.flgCSize + 1 ∧ t = raise .truncatedHeader s)
      ∨ (hcOff s.flgCSize + 1 ≤ s.len.toNat ∧ ∃ b p, readByte s.buf (hcOff s.flgCSize) = some b ∧
          readBytes s.buf 4 (hashLen s.flgCSize) = some p ∧
          t = { s with
            hcStored := b, hash := headerHash p, nread := BitVec.ofNat 5 (hcOff s.flgCSize + 1),
            st := .checksumRead }) := by
  rcases readField_next h with h | ⟨hl, bs, hb, hk⟩
  · exact .inl h
  · obtain ⟨b, hb1, rfl⟩ := readBytes_one hb
    obtain ⟨p, hp, hk⟩ := withBytes_next hk
    injection hk with hk
    exact .inr ⟨hl, b, p, hb1, hp, by simp [← hk, ofNat_leNat_one]⟩

/-- R150. -/
theorem execRdblk_cases (h : execRdblk s = .next t) :
    (s.len.toNat < endOff s.flgCSize ∧ t = raise .truncatedHeader s)
      ∨ (endOff s.flgCSize ≤ s.len.toNat ∧ ∃ bs, readBytes s.buf (blkOff s.flgCSize) 4 = some bs ∧
          t = { s with
            blkFlag := blockFlagOf (leWord bs), blkSize := blockSizeOf (leWord bs),
            nread := BitVec.ofNat 5 (endOff s.flgCSize), st := .dataBlockRead }) := by
  have he : blkOff s.flgCSize + 4 = endOff s.flgCSize := rfl
  rcases readField_next h with ⟨hl, ht⟩ | ⟨hl, bs, hb, hk⟩
  · exact .inl ⟨he ▸ hl, ht⟩
  · injection hk with hk
    exact .inr ⟨he ▸ hl, bs, hb, hk.symm⟩

/-- R160. -/
theorem execFinish_cases (h : execFinish s = .next t) :
    (checksumDiffers s = true ∧ s.strict = true
        ∧ t = raise .checksumMismatch { s with warnHc := true })
      ∨ (¬(checksumDiffers s = true ∧ s.strict = true)
        ∧ t = { s with warnHc := checksumDiffers s, st := .done, run := false }) := by
  by_cases hm : checksumDiffers s = true ∧ s.strict = true
  · have hf : checksumFatal s = true := by simp [checksumFatal, hm.1, hm.2]
    simp only [execFinish, hf, if_true, hm.1] at h
    injection h with h
    exact .inl ⟨hm.1, hm.2, h.symm⟩
  · have hf : checksumFatal s = false := by simpa [checksumFatal] using hm
    simp only [execFinish, hf, Bool.false_eq_true, if_false] at h
    injection h with h
    exact .inr ⟨hm, h.symm⟩

end Sys2Proof.Machine
end

