-- ==== Sys2Proof/Laws/PerInstr.lean ====
section
/-! SUPPORT. A statement about every instruction as a term, one lemma per constructor: the shape of its words. -/

namespace Sys2Proof.Laws.CodeShape

/-- The code of an instruction has the length the tables give it: a 4-bit state code below 7 (R84), a host
operation (R85), or 11 or 19 bytes (R70). -/
def Statement (i : Instr) : Prop :=
  match encode i with
  | .uop c => c.toNat < 7
  | .frame bs => bs.length = 11 ∨ bs.length = 19
  | _ => True

theorem chkmagic : Statement .chkmagic := show (_ : Nat) < 7 by decide
theorem rdflg : Statement .rdflg := show (_ : Nat) < 7 by decide
theorem rdbd : Statement .rdbd := show (_ : Nat) < 7 by decide
theorem brcsize : Statement .brcsize := show (_ : Nat) < 7 by decide
theorem rdhc : Statement .rdhc := show (_ : Nat) < 7 by decide
theorem rdblk : Statement .rdblk := show (_ : Nat) < 7 by decide
theorem finish : Statement .finish := show (_ : Nat) < 7 by decide
theorem start (strict : Bool) : Statement (.start strict) := trivial
theorem wrreg (n : Nat) (v : Word) : Statement (.wrreg n v) := trivial
theorem rdreg (n : Nat) : Statement (.rdreg n) := trivial
theorem reset : Statement .reset := trivial
theorem frameS (f : FrameFields) : Statement (.frameS f) := .inl (by simp [frameSBytes])
theorem frameL (f : FrameFields) (contentSize : BitVec 64) : Statement (.frameL f contentSize) :=
  .inr (by simp [frameLBytes])

end Sys2Proof.Laws.CodeShape
end

