-- ==== Sys2Proof/Laws/Step.lean ====
section
/-! SUPPORT. What one step can do: one inversion lemma over the moves. -/

namespace Sys2Proof.Machine

/-- R165: the micro-operation assigned to `ST` is the one its code decodes to. -/
theorem parserStep_eq (s : State) :
    (match decode (.uop s.st.code) with
      | .ok i => exec i s
      | .error _ => undecodable (.uop s.st.code) s) = parserStep s := by
  unfold parserStep
  cases s.st <;> rfl

/-- A parser's turn, or rest. -/
def parserMove (s : State) : Host.Outcome State Fault Refusal := if s.run then parserStep s else .next s

theorem step_nil {s : State} (h : s.pending = []) : step s = parserMove s := by
  have hp : popMove s = s := by cases s; simp_all [popMove]
  unfold step fetch fetchParser parserMove hostOrRest
  rw [h, hp]
  cases hr : s.run
  · rfl
  · exact parserStep_eq s

theorem step_turn {s : State} {r : List Move} (h : s.pending = .parserTurn :: r) :
    step s = parserMove (popMove s) := by
  unfold step fetch fetchParser parserMove hostOrRest
  rw [h]
  by_cases hr : s.run = true
  · simp only [popMove_run, hr, if_true]
    exact parserStep_eq (popMove s)
  · simp [hr]

theorem step_write {s : State} {n : Nat} {v : Word} {r : List Move} (h : s.pending = .write n v :: r) :
    step s = exec (decodeWrite n v) (popMove s) := by
  unfold step fetch
  rw [h]
  rfl

theorem step_read {s : State} {n : Nat} {r : List Move} (h : s.pending = .read n :: r) :
    step s = execRdreg n (popMove s) := by
  unfold step fetch
  rw [h]
  rfl

theorem step_reset {s : State} {r : List Move} (h : s.pending = .reset :: r) : step s = execReset (popMove s) := by
  unfold step fetch
  rw [h]
  rfl

theorem step_fill {s : State} {a : Nat} {bs : List Byte} {r : List Move} (h : s.pending = .fill a bs :: r) :
    step s = fillBuffer a bs (popMove s) := by
  unfold step fetch hostOrRest
  rw [h]

theorem step_poll {s : State} {r : List Move} (h : s.pending = .pollStatus :: r) :
    step s = execRdreg 2 (pollAgain (popMove s)) := by
  unfold step fetch hostOrRest
  rw [h]

theorem step_parse {s : State} {bs : List Byte} {strict : Bool} {r : List Move} (h : s.pending = .parse bs strict :: r) :
    step s = .next (expandParse bs strict (popMove s)) := by
  unfold step fetch hostOrRest
  rw [h]

/-- The host's own bookkeeping in a wait changes `pending` alone. -/
theorem pollAgain_eq (s : State) : ∃ ms, pollAgain s = { s with pending := ms } := by
  unfold pollAgain
  split
  · exact ⟨_, rfl⟩
  · exact ⟨s.pending, rfl⟩

/-- `STATUS` bit 4 is `RUN` (R40). -/
theorem status_bit4 (s : State) : (s.regValue 2).getLsbD 4 = s.run := by
  show s.statusReg.getLsbD 4 = s.run
  unfold State.statusReg State.errorO State.doneO
  cases s.st <;> cases s.run <;> cases s.err <;> cases s.warnHc <;> cases s.csizeValid <;> decide

theorem pollAgain_run {s : State} (h : s.run = true) :
    pollAgain s = { s with pending := .parserTurn :: .pollStatus :: s.pending } := by
  rw [pollAgain, status_bit4, h, if_pos rfl]

theorem pollAgain_rest {s : State} (h : s.run = false) : pollAgain s = s := by
  rw [pollAgain, status_bit4, h]
  rfl

/-! ### Several steps -/

theorem runSteps_zero (s : State) : Safety.runSteps 0 s = .next s := rfl

theorem runSteps_next {s t : State} (h : step s = .next t) (k : Nat) :
    Safety.runSteps (k + 1) s = Safety.runSteps k t := by
  have h' : Sys2Proof.core.step s = .next t := h
  simp only [Safety.runSteps, Host.Core.run, h']
  rfl

theorem runSteps_fault {s : State} {f : Fault} (h : step s = .fault f) (k : Nat) :
    Safety.runSteps (k + 1) s = .fault f := by
  have h' : Sys2Proof.core.step s = .fault f := h
  simp only [Safety.runSteps, Host.Core.run, h']
  rfl

theorem runSteps_refused {s : State} {r : Refusal} (h : step s = .refused r) (k : Nat) :
    Safety.runSteps (k + 1) s = .refused r := by
  have h' : Sys2Proof.core.step s = .refused r := h
  simp only [Safety.runSteps, Host.Core.run, h']
  rfl

/-- With nothing pending, steps of the machine are steps of the parser, then rest. -/
theorem runSteps_idle {s : State} (hp : s.pending = []) (hr : s.run = false) (k : Nat) :
    Safety.runSteps k s = .next s := by
  induction k with
  | zero => rfl
  | succ k ih =>
    have h : step s = .next s := by rw [step_nil hp]; simp [parserMove, hr]
    rw [runSteps_next h, ih]

end Sys2Proof.Machine
end

