-- ==== Sys2Proof/Laws/Run.lean ====
section
/-! SUPPORT. Whole runs: what a parser step never writes, and steps of the machine as steps of the parser. -/

namespace Sys2Proof.Machine

variable {s t : State}

/-- No micro-operation writes `LEN`, `STRICT`, the buffer or the host's side (R20, R51). -/
theorem parserStep_outside (h : parserStep s = .next t) :
    t.len = s.len ∧ t.strict = s.strict ∧ t.pending = s.pending ∧ t.replies = s.replies ∧ t.buf = s.buf := by
  cases hs : s.st <;> simp only [parserStep, hs] at h
  · rcases execChkmagic_cases h with ⟨_, rfl⟩ | ⟨_, bs, _, ⟨_, rfl⟩ | ⟨_, rfl⟩⟩ <;> simp [raise]
  · rcases execRdflg_cases h with ⟨_, rfl⟩ | ⟨_, bs, _, rfl⟩ <;> simp
  · rcases execRdbd_cases h with ⟨_, rfl⟩ | ⟨_, bs, _, rfl⟩ <;> simp
  · rcases execBrcsize_cases h with ⟨_, rfl⟩ | ⟨_, _, rfl⟩ | ⟨_, _, bs, _, rfl⟩ <;> simp
  · rcases execRdhc_cases h with ⟨_, rfl⟩ | ⟨_, b, p, _, _, rfl⟩ <;> simp
  · rcases execRdblk_cases h with ⟨_, rfl⟩ | ⟨_, bs, _, rfl⟩ <;> simp
  · rcases execFinish_cases h with ⟨_, _, rfl⟩ | ⟨_, rfl⟩ <;> simp [raise]
  · cases h
  · cases h

/-- `s` with other lists on the host's side. -/
def State.underHost (s : State) (p : List Move) (q : List Word) : State := { s with pending := p, replies := q }

/-- A guarded read does not look at the host's lists when what follows it does not. -/
theorem readField_host {p : List Move} {q : List Word} {a n : Nat}
    {k k' : List Byte → Host.Outcome State Fault Refusal} (h : readField s a n k = .next t)
    (hk : ∀ bs u, k bs = .next u → k' bs = .next (u.underHost p q)) :
    readField (s.underHost p q) a n k' = .next (t.underHost p q) := by
  rcases readField_next h with ⟨hl, rfl⟩ | ⟨hl, bs, hb, hn⟩
  · exact readField_short hl
  · rw [readField_some (s := s.underHost p q) hl hb]
    exact hk _ _ hn

/-- A parser step does not look at the host's lists: it is the same step under any others. -/
theorem parserStep_host (p : List Move) (q : List Word) (h : parserStep s = .next t) :
    parserStep (s.underHost p q) = .next (t.underHost p q) := by
  have hst : (s.underHost p q).st = s.st := rfl
  cases hs : s.st <;> simp only [parserStep, hs, hst] at h ⊢
  · refine readField_host h fun bs u hu => ?_
    injection hu with hu
    subst hu
    by_cases hm : leWord bs ≠ Config.magicConst
    · simp only [if_pos hm]; rfl
    · simp only [if_neg hm]; rfl
  · exact readField_host h fun bs u hu => by injection hu with hu; subst hu; rfl
  · exact readField_host h fun bs u hu => by injection hu with hu; subst hu; rfl
  · cases hc : s.flgCSize
    · rw [execBrcsize_absent hc] at h
      injection h with h
      subst h
      exact execBrcsize_absent (s := s.underHost p q) hc
    · rw [execBrcsize_present hc] at h
      rw [execBrcsize_present (s := s.underHost p q) hc]
      exact readField_host h fun bs u hu => by injection hu with hu; subst hu; rfl
  · refine readField_host h fun bs u hu => ?_
    obtain ⟨x, hx, hn⟩ := withBytes_next hu
    refine (withBytes_some (s := s.underHost p q) hx).trans ?_
    injection hn with hn
    subst hn
    rfl
  · exact readField_host h fun bs u hu => by injection hu with hu; subst hu; rfl
  · injection h with h
    subst h
    have hf : checksumFatal (s.underHost p q) = checksumFatal s := rfl
    unfold execFinish
    rw [hf]
    by_cases hc : checksumFatal s = true
    · simp only [if_pos hc]; rfl
    · simp only [if_neg hc]; rfl
  · cases h
  · cases h

/-- Parser steps add up. -/
theorem runParser_add (j k : Nat) (h : runParser j s = .next t) : runParser (j + k) s = runParser k t := by
  induction j generalizing s with
  | zero => injection h with h; rw [h, Nat.zero_add]
  | succ j ih =>
    rw [Nat.add_right_comm]
    by_cases hr : s.run = true
    · cases hq : parserStep s with
      | next u => rw [runParser_step hr hq] at h ⊢; exact ih h
      | fault f => simp [runParser, hr, hq] at h
      | refused f => simp [runParser, hr, hq] at h
    · have hr : s.run = false := by simpa using hr
      rw [runParser_rest hr] at h
      injection h with h
      subst h
      rw [runParser_rest hr, runParser_rest hr]

/-- With no host move pending, steps of the machine are the parser's. -/
theorem runSteps_eq_runParser (k : Nat) (hp : s.pending = []) : Safety.runSteps k s = runParser k s := by
  induction k generalizing s with
  | zero => rfl
  | succ k ih =>
    by_cases hr : s.run = true
    · have h' : step s = parserStep s := by rw [step_nil hp]; simp [parserMove, hr]
      cases h : parserStep s with
      | next t =>
        rw [runSteps_next (h'.trans h), runParser_step hr h]
        exact ih ((parserStep_outside h).2.2.1.trans hp)
      | fault f => rw [runSteps_fault (h'.trans h)]; simp [runParser, hr, h]
      | refused f => rw [runSteps_refused (h'.trans h)]; simp [runParser, hr, h]
    · have hr : s.run = false := by simpa using hr
      exact (runSteps_idle hp hr _).trans (runParser_rest hr _).symm

/-- The length written before a run never exceeds the number of bytes. -/
theorem lenOf_le (n : Nat) : (lenOf n).toNat ≤ n := by
  simp only [lenOf, BitVec.toNat_ofNat]
  omega

/-- A range all of whose bytes are present can be read. -/
theorem readBytes_isSome {m : List Host.Cell} {a n : Nat}
    (h : ∀ b, a ≤ b → b < a + n → (readByte m b).isSome = true) : ∃ bs, readBytes m a n = some bs := by
  induction n generalizing a with
  | zero => exact ⟨[], rfl⟩
  | succ n ih =>
    obtain ⟨bs, hb⟩ := ih (a := a + 1) fun b h1 h2 => h b (by omega) (by omega)
    obtain ⟨x, hx⟩ := Option.isSome_iff_exists.1 (h a (by omega) (by omega))
    exact ⟨x :: bs, by rw [readBytes, hx, hb]⟩

end Sys2Proof.Machine
end

