-- ==== Sys2Proof/Tests/Slice0.lean ====
section
/-! SUPPORT. The model's own tests, expected values from 95_test_vectors.md and the worked examples of the rules,
words from 30_encoding.md; and for each obligation with hypotheses a witness that meets them. -/

namespace Sys2Proof.Tests

open Sys2Proof.Machine Sys2Proof.Safety Sys2Proof.Claims

/-! ### Buffers of 95_test_vectors.md and a builder of small states -/

/-- Scenario A. -/
def scenA : List Byte := [0x04, 0x22, 0x4D, 0x18, 0x60, 0x40, 0x00, 0x10, 0x00, 0x00, 0x00]

def v1 : List Byte := [0x04, 0x22, 0x4D, 0x18, 0x60, 0x40, 0x82, 0x10, 0x00, 0x00, 0x00]

def v3 : List Byte := [0x04, 0x22, 0x4D, 0x18, 0x64, 0x70, 0xB9, 0xFF, 0xFF, 0xFF, 0xFF]

/-- V11. -/
def v11 : List Byte :=
  [0x04, 0x22, 0x4D, 0x18, 0x6C, 0x70, 0x01, 0x02, 0x03, 0x04, 0x05, 0x06, 0x07, 0x08, 0x44, 0x78, 0x56, 0x34, 0x12]

/-- The buffer of Scenario D. -/
def scenD : List Byte :=
  [0x04, 0x22, 0x4D, 0x18, 0x68, 0x40, 0x10, 0x00, 0x00, 0x00, 0x00, 0x00, 0x00, 0x00, 0x00, 0x10, 0x00, 0x00, 0x00]

/-- A running block in state `st` with the given `FLG`, over a buffer that holds exactly `bs`. -/
def running (st : SeqState) (flg : Byte) (bs : List Byte) : State :=
  { State.reset with
    st := st, run := true, flg := flg, len := BitVec.ofNat 32 bs.length, buf := writeBytes [] 0 bs }

/-- A block at rest in `Done` with registers that are not 0. -/
def resting : State := { State.reset with st := .done, flg := 0x60, nread := 11, hash := 0x301A8268, len := 11 }

/-- A block at rest in `Error` (R180's worked example). -/
def failed : State := { State.reset with st := .error, err := .invalidMagic, magic := 0x184D2205, nread := 4, len := 4 }

/-- The state START leaves over the bytes `bs`. -/
def startedOver (bs : List Byte) : State :=
  beginRun true { State.reset with len := BitVec.ofNat 32 bs.length, buf := writeBytes [] 0 bs }

/-- V1's run after RDHC. -/
def midRun : State :=
  { startedOver v1 with
    st := .checksumRead, magic := 0x184D2204, flg := 0x60, bd := 0x40, hcStored := 0x82, hash := 0x301A8268, nread := 7 }

def pend (m : Move) (s : State) : State := { s with pending := [m] }

/-- What a view of the next state gives, if there is one. -/
def view {α : Type} (f : State → α) : Host.Outcome State Fault Refusal → Option α
  | .next t => some (f t)
  | .fault _ => none
  | .refused _ => none

def isNext (o : Host.Outcome State Fault Refusal) : Bool := (view (fun _ => ()) o).isSome

theorem next_of_isNext {o : Host.Outcome State Fault Refusal} (h : isNext o = true) : ∃ t, o = .next t := by
  cases o with
  | next t => exact ⟨t, rfl⟩
  | fault f => cases h
  | refused r => cases h

/-! ### WellFormed and decoding -/

theorem test_wellFormed_refuses_start_written_as_wrreg :
    ¬WellFormed (.wrreg 0 1) ∧ ¬WellFormed (.wrreg 0 0xFFFFFFFF) := by decide

theorem test_wellFormed_accepts_other_writes :
    WellFormed (.wrreg 0 2) ∧ WellFormed (.wrreg 1 1) ∧ WellFormed (.wrreg 11 3) := by decide

/-- R84's codes, 7 and 15 refused. -/
theorem test_decode_state_codes :
    decode (.uop 0b0000) = .ok .chkmagic ∧ decode (.uop 0b0001) = .ok .rdflg ∧ decode (.uop 0b0010) = .ok .rdbd
      ∧ decode (.uop 0b0011) = .ok .brcsize ∧ decode (.uop 0b0100) = .ok .rdhc ∧ decode (.uop 0b0101) = .ok .rdblk
      ∧ decode (.uop 0b0110) = .ok .finish ∧ decode (.uop 0b0111) = .error .noMicroOperation
      ∧ decode (.uop 0b1111) = .error .noMicroOperation :=
  ⟨rfl, rfl, rfl, rfl, rfl, rfl, rfl, rfl, rfl⟩

/-- R85: data bits 31:2 of START are ignored; without bit 0, and to another register, the write is WRREG. -/
theorem test_decode_host_operations :
    decode (.write 0 0xFFFFFFFD) = .ok (.start false) ∧ decode (.write 0 0x00000003) = .ok (.start true)
      ∧ decode (.write 0 0x00000002) = .ok (.wrreg 0 2) ∧ decode (.write 1 0x0000000B) = .ok (.wrreg 1 11)
      ∧ decode (.read 10) = .ok (.rdreg 10) ∧ decode .reset = .ok .reset :=
  ⟨rfl, rfl, rfl, rfl, rfl, rfl⟩

/-- R72, R75, R76, R79, V3: FLG `0x64`, BD `0x70`. -/
theorem test_decode_format_S :
    decode (.frame v3) = .ok (.frameS ⟨⟨0b01, true, false, true, false, false⟩, ⟨false, 0b111, 0b0000⟩, 0xB9, true,
      0x7FFFFFFF⟩) := rfl

/-- R73, V11: FLG `0x6C`. -/
theorem test_decode_format_L :
    decode (.frame v11) = .ok (.frameL ⟨⟨0b01, true, false, true, false, false⟩, ⟨false, 0b111, 0b0000⟩, 0x44, false,
      0x12345678⟩ 0x0807060504030201) := rfl

theorem test_decode_refuses_by_name :
    decode (.frame [0x18, 0x4D, 0x22, 0x04, 0x60, 0x40, 0x82, 0x10, 0x00, 0x00, 0x00]) = .error .invalidMagic
      ∧ decode (.frame [0x04, 0x22, 0x4D, 0x18, 0x60, 0x40, 0x82, 0x10, 0x00, 0x00]) = .error .truncatedHeader
      ∧ decode (.frame [0x04, 0x22]) = .error .truncatedHeader
      ∧ decode (.frame (v1 ++ [0x00])) = .error .trailingBytes := ⟨rfl, rfl, rfl, rfl⟩

theorem test_encode_writes_the_vectors :
    encode (.frameS ⟨⟨1, true, false, false, false, false⟩, ⟨false, 4, 0⟩, 0x82, false, 16⟩) = .frame v1
      ∧ encode (.frameL ⟨⟨1, true, false, true, false, false⟩, ⟨false, 7, 0⟩, 0x44, false, 0x12345678⟩
          0x0807060504030201) = .frame v11 := ⟨rfl, rfl⟩

/-! ### The micro-operations: Scenario A step by step (95_test_vectors.md 1.1) and the vectors named -/

theorem test_chkmagic_scenario_A :
    view (fun t => (t.regValue 2, t.regValue 3, t.regValue 4)) (exec .chkmagic (running .start 0 scenA))
      = some (0x11, 4, 0x184D2204) := by decide

/-- M2. -/
theorem test_chkmagic_big_endian_bytes_fail :
    view (fun t => (t.regValue 2, t.regValue 3, t.regValue 4)) (exec .chkmagic (running .start 0 [0x18, 0x4D, 0x22, 0x04]))
      = some (0x148, 4, 0x04224D18) := by decide

theorem test_rdflg_scenario_A :
    view (fun t => (t.regValue 2, t.regValue 3, t.regValue 5)) (exec .rdflg (running .magicRead 0 scenA))
      = some (0x12, 5, 0x60) := by decide

/-- C4. -/
theorem test_rdflg_four_bytes_truncated :
    view (fun t => (t.regValue 2, t.flg)) (exec .rdflg (running .magicRead 0 (scenA.take 4))) = some (0x248, 0) := by
  decide

theorem test_rdbd_scenario_A :
    view (fun t => (t.regValue 2, t.regValue 3, t.regValue 5)) (exec .rdbd (running .flagsRead 0x60 scenA))
      = some (0x13, 6, 0x4060) := by decide

/-- C5. -/
theorem test_rdbd_five_bytes_truncated :
    view (fun t => (t.regValue 2, t.bd)) (exec .rdbd (running .flagsRead 0x60 (scenA.take 5))) = some (0x248, 0) := by
  decide

/-- V11: `0x0807060504030201`, not the rejected reading `[5,13)`. -/
theorem test_brcsize_V11 :
    view (fun t => (t.regValue 2, t.regValue 3, t.regValue 6, t.regValue 7)) (exec .brcsize (running .blockDescRead 0x6C v11))
      = some (0x814, 14, 0x04030201, 0x08070605) := by decide

/-- D13. -/
theorem test_brcsize_thirteen_bytes_truncated :
    view (fun t => (t.regValue 2, t.csize)) (exec .brcsize (running .blockDescRead 0x68 (scenD.take 13)))
      = some (0x248, 0) := by decide

theorem test_rdhc_scenario_A :
    view (fun t => (t.regValue 2, t.regValue 3, t.regValue 8, t.regValue 9))
      (exec .rdhc (running .contentSizeBranch 0x60 scenA)) = some (0x15, 7, 0x8200, 0x301A8268) := by decide

/-- D15: ten bytes hashed. -/
theorem test_rdhc_format_L :
    view (fun t => (t.regValue 3, t.regValue 8, t.regValue 9))
      (exec .rdhc (running .contentSizeBranch 0x68 (scenD.take 15))) = some (15, 0x6500, 0xB5456571) := by decide

/-- V3. -/
theorem test_rdblk_V3 :
    view (fun t => (t.regValue 3, t.blkFlag, t.blkSize)) (exec .rdblk (running .checksumRead 0x64 v3))
      = some (11, true, 0x7FFFFFFF) := by decide

theorem test_rdblk_V11 :
    view (fun t => (t.regValue 3, t.blkFlag, t.blkSize)) (exec .rdblk (running .checksumRead 0x6C v11))
      = some (19, false, 0x12345678) := by decide

/-- R160's worked example, both strictnesses. -/
theorem test_finish_mismatch :
    view State.statusReg (exec .finish { running .dataBlockRead 0x60 [] with hash := 0x301A8268 }) = some 0xA7
      ∧ view State.statusReg (exec .finish { running .dataBlockRead 0x60 [] with hash := 0x301A8268, strict := true })
          = some 0x3C8 := by decide

/-- V1's bytes: the byte `0x82`, not `0x68`, matches (C2). -/
theorem test_finish_match :
    view State.statusReg (exec .finish { running .dataBlockRead 0x60 [] with hash := 0x301A8268, hcStored := 0x82 })
      = some 0x27 := by decide

/-! ### The host's operations -/

/-- R180's worked example. -/
theorem test_start_after_error :
    view (fun t => (t.regValue 0, t.regValue 1, t.regValue 2, t.regValue 4)) (exec (.start true) failed)
      = some (2, 4, 0x10, 0) := by decide

theorem test_start_ignored_while_running :
    exec (.start true) (running .flagsRead 0x60 v1) = .next (running .flagsRead 0x60 v1) := rfl

theorem test_wrreg_len : view State.len (exec (.wrreg 1 11) State.reset) = some 11 := by decide

theorem test_wrreg_read_only_ignored : exec (.wrreg 4 5) resting = .next resting := rfl

/-- R184: bits 15:8 are `HC_CALC`; above 10 the value is 0. -/
theorem test_rdreg :
    view State.replies (exec (.rdreg 8) resting) = some [0x8200]
      ∧ view State.replies (exec (.rdreg 11) resting) = some [0] := by decide

theorem test_reset_during_a_run :
    exec .reset (running .flagsRead 0x60 v1) = .next { State.reset with buf := writeBytes [] 0 v1 } := rfl

/-! ### Headers as runs -/

/-- V1 with `STRICT = 1`; Scenario A with `STRICT = 0`. -/
theorem test_frameS :
    view (fun t => (t.regValue 2, t.regValue 3, t.regValue 10))
        (step { pend (.header v1) State.reset with strict := true }) = some (0x27, 11, 0x10)
      ∧ view (fun t => (t.regValue 2, t.regValue 3, t.regValue 8)) (step (pend (.header scenA) State.reset))
        = some (0xA7, 11, 0x8200) := by decide

/-- V12 with `STRICT = 1`. -/
theorem test_frameL_mismatch :
    view (fun t => (t.regValue 2, t.regValue 3, t.regValue 10))
      (exec (.frameL ⟨⟨1, true, false, true, false, false⟩, ⟨false, 7, 0⟩, 0x45, false, 0x12345678⟩
        0x0807060504030201) { State.reset with strict := true }) = some (0xBC8, 19, 0x12345678) := by decide

/-- D14: a header cut short. -/
theorem test_header_truncated :
    view (fun t => (t.regValue 2, t.regValue 3)) (step (pend (.header (scenD.take 14)) State.reset)) = some (0xA48, 14) := by
  decide

/-- Program 1 of 95_test_vectors.md section 7, rows 2 to 5: LEN 11, CTRL data `0x00000003`, and the wait. -/
theorem test_parse_expands :
    view (fun t => t.pending.take 5) (step (pend (.parse v1 true) State.reset))
        = some [.fill 0 v1, .write 1 0x0000000B, .write 0 0x00000003, .pollStatus, .read 2]
      ∧ view (fun t => t.pending.take 2) (step (pend (.parse v1 true) midRun)) = some [.pollStatus, .fill 0 v1] := by
  decide

/-- 95_test_vectors.md section 1.1: STATUS `0x15` after RDHC, and `RUN` is still 1; in `Done` the wait is over. -/
theorem test_poll_status :
    view (fun t => (t.replies, t.pending)) (step (pend .pollStatus midRun)) = some ([0x15], [.parserTurn, .pollStatus])
      ∧ view (fun t => (t.replies, t.pending)) (step (pend .pollStatus resting)) = some ([0x27], []) := by decide

/-- A table row's bits, placed after reset, are what the next step runs: RDBLK finds `LEN = 0`; V1's 88 bits. -/
theorem test_placed_words :
    view State.statusReg (step (State.reset.withFetchWord 8 5)) = some 0x248
      ∧ view State.statusReg (step (State.reset.withFetchWord 88 0x0000001082406018_4D2204)) = some 0x27 := by decide

/-! ### Memory and hash -/

theorem test_buffer_canonical :
    writeBytes [(0, 1), (5, 2)] 4 [7, 8] = [(0, 1), (4, 7), (5, 8)] ∧ Memory.wf (writeBytes [] 0 v1) := by decide

/-- "Nobody inspects the spammish repetition" (R139), the path of R138. -/
theorem test_hash_39_bytes :
    hash32 ([0x4E, 0x6F, 0x62, 0x6F, 0x64, 0x79, 0x20, 0x69, 0x6E, 0x73, 0x70, 0x65, 0x63, 0x74, 0x73, 0x20] ++
      [0x74, 0x68, 0x65, 0x20, 0x73, 0x70, 0x61, 0x6D, 0x6D, 0x69, 0x73, 0x68, 0x20] ++
      [0x72, 0x65, 0x70, 0x65, 0x74, 0x69, 0x74, 0x69, 0x6F, 0x6E]) 0 = 0xE2293B2F := by decide

/-- Ten-byte spans of 95_test_vectors.md section 4. -/
theorem test_hash_ten_bytes :
    hash32 [0x6C, 0x70, 1, 2, 3, 4, 5, 6, 7, 8] 0 = 0xD65744F6
      ∧ hash32 [0xFF, 0xFF, 0, 0, 0, 0, 0, 0, 0, 0] 0 = 0x1F3CC461 := by decide

/-! ### Witnesses: states and operands that meet the hypotheses of the obligations -/

/-- `s` with `bs` in the buffer and their number in `LEN`. -/
def withBuf (s : State) (bs : List Byte) : State := { s with len := BitVec.ofNat 32 bs.length, buf := writeBytes [] 0 bs }

def byteOf (bs : List Byte) (i : Nat) : Byte := bs.getD i 0

theorem witness_DecodeEncodeRoundTrip :
    WellFormed .chkmagic ∧ WellFormed (.start true) ∧ WellFormed (.wrreg 0 0xFFFFFFFE) ∧ WellFormed (.wrreg 1 1)
      ∧ WellFormed (.frameS ⟨⟨3, true, true, true, true, true⟩, ⟨true, 7, 15⟩, 0xFF, true, 0x7FFFFFFF⟩)
      ∧ WellFormed (.frameL ⟨⟨0, false, false, false, false, false⟩, ⟨false, 0, 0⟩, 0, false, 0⟩ 0xFFFFFFFFFFFFFFFF) := by
  decide

theorem witness_FrameBytesHaveOneReading :
    (∃ i, decode (.frame v1) = .ok i) ∧ ∃ i, decode (.frame v11) = .ok i := ⟨⟨_, rfl⟩, ⟨_, rfl⟩⟩

theorem witness_HeaderFormatChosenByFlgBit3 :
    (decode (.frame ((List.range 11).map (byteOf v1))) = decode (.frame v1) ∧ (byteOf v1 4).getLsbD 3 = false)
      ∧ decode (.frame ((List.range 19).map (byteOf v11))) = decode (.frame v11) ∧ (byteOf v11 4).getLsbD 3 = true :=
  ⟨⟨rfl, rfl⟩, rfl, rfl⟩

theorem witness_StateCodeSelectsMicroOperation :
    (∀ q ∈ [SeqState.start, .magicRead, .flagsRead, .blockDescRead, .contentSizeBranch, .checksumRead, .dataBlockRead],
      (running q 0x60 v1).run = true ∧ (running q 0x60 v1).st = q ∧ (running q 0x60 v1).pending = [])
      ∧ 7 ≤ (7#4).toNat ∧ 7 ≤ (15#4).toNat := by decide

theorem witness_PlacedTableWordRunsNext :
    decodeTableWord 0 0 = some .reset ∧ decodeTableWord 8 6 = some .finish ∧ decodeTableWord 32 1 = some (.start false)
      ∧ decodeTableWord 32 0 = some (.wrreg 0 0) ∧ (decodeTableWord 88 (leNat v1)).isSome = true
      ∧ (decodeTableWord 152 (leNat v11)).isSome = true := by decide

theorem witness_StepRunsDecodedInstruction :
    (fetch (running .start 0 v1) = some (.uop 0) ∧ decode (.uop 0) = .ok .chkmagic)
      ∧ ((running .start 0 v1).run = true ∧ (running .start 0 v1).pending = [])
      ∧ (State.reset.run = false ∧ State.reset.pending = [])
      ∧ (pend (.write 0 3) State.reset).pending = [.write 0 3] ∧ (pend (.read 2) State.reset).pending = [.read 2]
      ∧ (pend .reset State.reset).pending = [.reset] ∧ (pend (.header v1) State.reset).pending = [.header v1] :=
  ⟨⟨rfl, rfl⟩, ⟨rfl, rfl⟩, ⟨rfl, rfl⟩, rfl, rfl, rfl, rfl⟩

theorem witness_SequencerStepTable :
    (State.reset.pending = [] ∧ State.reset.run = false)
      ∧ ∀ q ∈ [SeqState.start, .magicRead, .flagsRead, .blockDescRead, .contentSizeBranch, .checksumRead, .dataBlockRead],
        (running q 0x6C v11).pending = [] ∧ (running q 0x6C v11).run = true
          ∧ terminal (running q 0x6C v11).st = false ∧ BufReady (running q 0x6C v11) := by decide

theorem witness_ChkmagicReadsAndComparesMagic :
    (running .start 0 (v1.take 3)).len.toNat < 4
      ∧ ∀ i, i < 4 → 4 ≤ (running .start 0 (v1.take 4)).len.toNat
        ∧ readByte (running .start 0 (v1.take 4)).buf i = some (byteOf v1 i) := by decide

theorem witness_RdflgKeepsTheWholeByte :
    (running .magicRead 0 (v1.take 4)).len.toNat < 5 ∧ 5 ≤ (running .magicRead 0 (v1.take 5)).len.toNat
      ∧ readByte (running .magicRead 0 (v1.take 5)).buf 4 = some 0x60 := by decide

theorem witness_RdbdKeepsTheWholeByte :
    (running .flagsRead 0 (v1.take 5)).len.toNat < 6 ∧ 6 ≤ (running .flagsRead 0 (v1.take 6)).len.toNat
      ∧ readByte (running .flagsRead 0 (v1.take 6)).buf 5 = some 0x40 := by decide

theorem witness_BrcsizeReadsContentSizeWhenPresent :
    (running .blockDescRead 0xF7 (v1.take 6)).flg.getLsbD 3 = false
      ∧ ((running .blockDescRead 0x08 (v11.take 13)).flg.getLsbD 3 = true
        ∧ (running .blockDescRead 0x08 (v11.take 13)).len.toNat < 14)
      ∧ (running .blockDescRead 0x08 (v11.take 14)).flg.getLsbD 3 = true
      ∧ 14 ≤ (running .blockDescRead 0x08 (v11.take 14)).len.toNat
      ∧ ∀ a, a < 14 → 6 ≤ a → readByte (running .blockDescRead 0x08 (v11.take 14)).buf a = some (byteOf v11 a) := by
  decide

theorem witness_RdhcStoresByteAndHashesSpan :
    (running .contentSizeBranch 0x60 (v1.take 6)).len.toNat < 7
      ∧ (running .contentSizeBranch 0x6C (v11.take 14)).len.toNat < 15
      ∧ (7 ≤ (running .contentSizeBranch 0x60 (v1.take 7)).len.toNat
        ∧ ∀ a, a < 7 → 4 ≤ a → readByte (running .contentSizeBranch 0x60 (v1.take 7)).buf a = some (byteOf v1 a))
      ∧ 15 ≤ (running .contentSizeBranch 0x6C (v11.take 15)).len.toNat
      ∧ ∀ a, a < 15 → 4 ≤ a → readByte (running .contentSizeBranch 0x6C (v11.take 15)).buf a = some (byteOf v11 a) := by
  decide

theorem witness_RdblkSplitsFlagAndSize :
    (running .checksumRead 0x60 (v1.take 10)).len.toNat < 11 ∧ (running .checksumRead 0x6C (v11.take 18)).len.toNat < 19
      ∧ (∀ i, i < 4 → 11 ≤ (running .checksumRead 0x60 v1).len.toNat
        ∧ readByte (running .checksumRead 0x60 v1).buf (7 + i) = some (byteOf v1 (7 + i)))
      ∧ ∀ i, i < 4 → 19 ≤ (running .checksumRead 0x6C v11).len.toNat
        ∧ readByte (running .checksumRead 0x6C v11).buf (15 + i) = some (byteOf v11 (15 + i)) := by decide

/-- Flag 1 with the largest size, at offset 7; flag 0 with V11's size, at offset 15. -/
theorem witness_RdblkInvertsThePacking :
    7 + 4 ≤ (running .checksumRead 0x64 v3).len.toNat ∧ 15 + 4 ≤ (running .checksumRead 0x6C v11).len.toNat
      ∧ (∀ i, i < 4 → readByte (running .checksumRead 0x64 v3).buf (7 + i)
        = some (BitVec.ofNat 8 ((true.toNat * 2 ^ 31 + (0x7FFFFFFF#31).toNat) / 256 ^ i)))
      ∧ ∀ i, i < 4 → readByte (running .checksumRead 0x6C v11).buf (15 + i)
        = some (BitVec.ofNat 8 ((false.toNat * 2 ^ 31 + (0x12345678#31).toNat) / 256 ^ i)) := by decide

theorem witness_FinishComparesChecksumBytes :
    midRun.hcStored = midRun.hash.extractLsb' 8 8
      ∧ (resting.hcStored ≠ resting.hash.extractLsb' 8 8 ∧ resting.strict = false)
      ∧ (withBuf { resting with strict := true } []).hcStored
        ≠ (withBuf { resting with strict := true } []).hash.extractLsb' 8 8
      ∧ (withBuf { resting with strict := true } []).strict = true := by decide

theorem witness_TruncationTestPrecedesTheRead :
    Instr.rdblk ∈ uops ∧ (running .checksumRead 0x60 (v1.take 10)).len.toNat
        < readEnd .rdblk (running .checksumRead 0x60 (v1.take 10))
      ∧ readEnd .rdblk (running .checksumRead 0x60 v1) ≤ (running .checksumRead 0x60 v1).len.toNat
      ∧ isNext (exec .rdblk (running .checksumRead 0x60 v1)) = true := by decide

/-- The three forms of the error entry. -/
theorem witness_ErrorEntryWritesOnlyItsElements :
    view State.st (exec .rdbd (running .flagsRead 0x60 (v1.take 5))) = some .error
      ∧ view State.st (exec .chkmagic (running .start 0 [0x05, 0x22, 0x4D, 0x18])) = some .error
      ∧ view (fun t => (t.st, t.pending)) (exec .finish { running .dataBlockRead 0 v1 with hcStored := 1, strict := true })
        = some (.error, []) := by decide

theorem witness_MicroOperationFrame :
    isNext (exec .reset midRun) = true
      ∧ ∀ i ∈ uops, isNext (exec i (running .start 0x60 v1)) = true ∧ isNext (exec i (running .start 0x6C v11)) = true := by
  decide

/-- `LEN = 19` over an empty buffer, and over one that lacks only the last byte. -/
theorem witness_AbsentByteBelowLenIsRefused :
    (∀ i ∈ uops, i ≠ .finish → readEnd i { running .start 0x6C [] with len := 19 } ≤ 19
        ∧ readStart i { running .start 0x6C [] with len := 19 } < readEnd i { running .start 0x6C [] with len := 19 })
      ∧ readByte (running .start 0x6C []).buf 0 = none
      ∧ readByte { running .checksumRead 0x6C (v11.take 18) with len := 19 }.buf 18 = none := by decide

theorem witness_MemReadIsLittleEndian :
    ∀ i, i < 8 → readByte (writeBytes [] 0 v11) (6 + i) = some (byteOf v11 (6 + i)) := by
  decide

theorem witness_StartClearsAndRuns :
    (3#32).getLsbD 0 = true ∧ failed.run = false ∧ resting.run = false ∧ State.reset.run = false
      ∧ (running .flagsRead 0x60 v1).run = true := by decide

theorem witness_CommandsIgnoredWhileRunning :
    ((pend (.write 0 3) midRun).run = true ∧ (pend (.write 0 3) midRun).pending = [.write 0 3])
      ∧ ((pend (.write 1 9) midRun).run = true ∧ (pend (.write 1 9) midRun).pending = [.write 1 9])
      ∧ view State.run (step { midRun with st := .dataBlockRead }) = some false
      ∧ view State.run (step (pend .parserTurn { midRun with st := .dataBlockRead })) = some false
      ∧ view State.run (step (pend .reset midRun)) = some false
      ∧ view State.run (step (pend (.header scenA) midRun)) = some false := by decide

theorem witness_WrregWritesCtrlAndLenOnly :
    (resting.run = false ∧ (0xFFFFFFFE#32).getLsbD 0 = false) ∧ (3#32).getLsbD 0 = true
      ∧ ((1 ≤ 1 ∧ midRun.run = true) ∨ 2 ≤ 1) ∧ ((2 ≤ 1 ∧ resting.run = true) ∨ 2 ≤ 2)
      ∧ ((11 ≤ 1 ∧ midRun.run = true) ∨ 2 ≤ 11) := by decide

theorem witness_FillThenReadBack :
    (pend (.fill 3 [1, 2]) resting).pending = [.fill 3 [1, 2]] ∧ (pend (.fill 3 [1, 2]) resting).run = false
      ∧ 1 < [1, 2].length ∧ 3 + [1, 2].length ≤ 5 := by decide

/-- Offset 18 changed, offset 18 written with the byte it holds, offset 19 changed. -/
theorem witness_BufferChangeDuringRunIsRefused :
    (18 + 0 < 19 ∧ readByte (startedOver v11).buf (18 + 0) ≠ ([0x13] : List Byte)[0]?)
      ∧ isNext (step (pend (.fill 18 [0x12]) (startedOver v11))) = true
      ∧ isNext (step (pend (.fill 18 [0x13]) (startedOver v11))) = false
      ∧ isNext (step (pend (.fill 19 [0x13]) (startedOver v11))) = true ∧ (startedOver v11).run = true := by decide

theorem witness_FrameSRunsToItsReport :
    State.reset.run = false ∧ resting.run = false ∧ failed.run = false := by decide

theorem witness_FrameLRunsToItsReport :
    ({ resting with strict := true } : State).run = false ∧ encode (.frameL ⟨⟨1, true, false, true, false, false⟩,
      ⟨false, 7, 0⟩, 0x44, false, 0x12345678⟩ 0x0807060504030201) = .frame v11 := ⟨rfl, rfl⟩

theorem midRun_inv : BlockInv midRun := by constructor <;> decide

theorem startedOver_v11_inv : BlockInv (startedOver v11) := by constructor <;> decide

theorem resting_inv : BlockInv { resting with magic := 0x184D2204, hcStored := 0x82 } := by constructor <;> decide

theorem failed_inv : BlockInv failed := by constructor <;> decide

theorem midRun_coherent : Coherent midRun := by constructor <;> decide

theorem witness_FrameWaitsForTheRunInProgress :
    (BlockInv midRun ∧ BufReady midRun ∧ midRun.run = true)
      ∧ BlockInv (startedOver v11) ∧ BufReady (startedOver v11) ∧ (startedOver v11).run = true :=
  ⟨⟨midRun_inv, by decide, rfl⟩, startedOver_v11_inv, by decide, rfl⟩

/-- A whole header, a cut one, and no byte at all. -/
theorem witness_HeaderMoveFollowsTheTable :
    ∀ n ∈ [0, 3, 4, 5, 6, 10, 11], (pend (.header (v1.take n)) resting).run = false
      ∧ ∀ i, i < (v1.take n).length → (v1.take n)[i]? = some (byteOf v1 i) := by decide

theorem witness_ParseExpandsToTheHostSequence :
    (pend (.parse v11 true) midRun).pending = [.parse v11 true] ∧ (pend (.parse v11 true) midRun).run = true
      ∧ (pend (.parse [] false) failed).pending = [.parse [] false] ∧ (pend (.parse [] false) failed).run = false := by
  decide

theorem witness_WaitReadsStatusUntilRunFalls :
    (pend .pollStatus midRun).pending = [.pollStatus] ∧ (pend .pollStatus midRun).run = true
      ∧ (pend .pollStatus failed).run = false := by decide

theorem witness_WaitEndsWithTheRun :
    BlockInv (pend .pollStatus midRun) ∧ BufReady (pend .pollStatus midRun)
      ∧ (pend .pollStatus midRun).pending = [.pollStatus] := ⟨by constructor <;> decide, by decide, rfl⟩

/-- A whole header, cut ones, and no byte at all, with either strictness. -/
theorem witness_ParseMoveFollowsTheTable :
    ∀ n ∈ [0, 3, 4, 5, 6, 10, 11], ∀ strict : Bool,
      (pend (.parse (v1.take n) strict) resting).pending = [.parse (v1.take n) strict]
        ∧ (pend (.parse (v1.take n) strict) resting).run = false
        ∧ ∀ i, i < (v1.take n).length → (v1.take n)[i]? = some (byteOf v1 i) := by decide

theorem witness_ParsingTwiceChangesNothing :
    isNext (exec (.frameS ⟨⟨1, true, false, false, false, false⟩, ⟨false, 4, 0⟩, 0x82, false, 16⟩) resting) = true
      ∧ isNext (exec (.frameL ⟨⟨1, true, false, true, false, false⟩, ⟨false, 7, 0⟩, 0x44, false, 16⟩ 3) resting) = true := by
  decide

/-- In a run, at rest in `Done`, and at rest in `Error`. -/
theorem witness_EveryStepKeepsInv :
    (BlockInv midRun ∧ ∃ t, step midRun = .next t)
      ∧ (BlockInv { resting with magic := 0x184D2204, hcStored := 0x82 }
        ∧ ∃ t, step { resting with magic := 0x184D2204, hcStored := 0x82 } = .next t)
      ∧ BlockInv failed ∧ ∃ t, step failed = .next t :=
  ⟨⟨midRun_inv, next_of_isNext (by decide)⟩, ⟨resting_inv, next_of_isNext (by decide)⟩, failed_inv, _, rfl⟩

theorem witness_EveryStepKeepsCoherence :
    BlockInv midRun ∧ Coherent midRun ∧ midRun.run = true ∧ ∃ t, step midRun = .next t :=
  ⟨midRun_inv, midRun_coherent, rfl, next_of_isNext (by decide)⟩

/-- Every line of R168 at a boundary of its range of lengths. -/
theorem witness_RunFollowsTheParseTable :
    (∀ n ∈ [0, 3, 4, 5, 6, 7, 10, 11], Cleared (startedOver (v1.take n)) ∧ (startedOver (v1.take n)).run = true
      ∧ (startedOver (v1.take n)).pending = []
      ∧ ∀ a, a < min (startedOver (v1.take n)).len.toNat 19 → readByte (startedOver (v1.take n)).buf a = some (byteOf v1 a))
    ∧ ∀ n ∈ [6, 13, 14, 15, 18, 19], Cleared (startedOver (v11.take n)) ∧ (startedOver (v11.take n)).run = true
      ∧ (startedOver (v11.take n)).pending = []
      ∧ ∀ a, a < min (startedOver (v11.take n)).len.toNat 19 →
        readByte (startedOver (v11.take n)).buf a = some (byteOf v11 a) := by decide

/-- The numbers of steps of R168's lines 1, 3 to 9 and 12, and of lines 2, 10 and 11. -/
theorem test_parse_table_steps :
    ([3, 4, 5, 6, 7, 10, 11].map fun n => (parseEnd (byteOf v1) (startedOver (v1.take n))).1) = [1, 2, 3, 5, 6, 6, 7]
      ∧ ([6, 13, 14, 15, 18, 19].map fun n => (parseEnd (byteOf v11) (startedOver (v11.take n))).1) = [4, 4, 5, 6, 6, 7]
      ∧ (parseEnd (byteOf [0x05, 0x22, 0x4D, 0x18]) (startedOver v1)).1 = 1
      ∧ (parseEnd (byteOf scenA) (startedOver scenA)).2.statusReg = 0x3C8
      ∧ (parseEnd (byteOf scenA) { startedOver scenA with strict := false }).2.statusReg = 0xA7 := by decide

theorem witness_RunEndsWithinSevenSteps :
    BlockInv (startedOver v11) ∧ BufReady (startedOver v11) ∧ (startedOver v11).run = true
      ∧ (startedOver v11).pending = [] := ⟨startedOver_v11_inv, by decide, rfl, rfl⟩

/-- Lengths 19 and 20, different earlier states, different bytes at 19 and above. -/
theorem witness_RunDependsOnlyOnItsInputs :
    (withBuf resting v11).run = false ∧ (withBuf failed (v11 ++ [0xAA])).run = false ∧ (withBuf resting v11).pending = []
      ∧ (withBuf failed (v11 ++ [0xAA])).pending = []
      ∧ ((withBuf resting v11).len = (withBuf failed (v11 ++ [0xAA])).len
        ∨ (19 ≤ (withBuf resting v11).len.toNat ∧ 19 ≤ (withBuf failed (v11 ++ [0xAA])).len.toNat))
      ∧ ∀ a, a < min (withBuf resting v11).len.toNat 19 → ∃ v,
        readByte (withBuf resting v11).buf a = some v ∧ readByte (withBuf failed (v11 ++ [0xAA])).buf a = some v :=
  ⟨rfl, rfl, rfl, rfl, by decide, fun a ha => ⟨byteOf v11 a, by revert a; decide⟩⟩

theorem witness_NoStopWhenTheHostKeepsItsDuties :
    (BlockInv midRun ∧ BufReady midRun ∧ midRun.pending = [])
      ∧ BlockInv (pend (.fill 18 [0]) { failed with len := 0 }) ∧ BufReady (pend (.fill 18 [0]) { failed with len := 0 })
      ∧ (pend (.fill 18 [0]) { failed with len := 0 }).run = false :=
  ⟨⟨midRun_inv, by decide, rfl⟩, by constructor <;> decide, by decide, rfl⟩

theorem witness_ParserNeverWritesTheBuffer :
    view (fun t => readByte t.buf 4) (step (pend (.fill 4 [9]) State.reset)) = some (some 9)
      ∧ readByte State.reset.buf 4 = none
      ∧ view (fun t => readByte t.buf 4) (step (pend (.header v1) State.reset)) = some (some 0x60) := by decide

theorem witness_LenAndStrictConstantDuringRun :
    midRun.run = true ∧ midRun.len = 11 ∧ view State.len (step (pend .reset midRun)) = some 0
      ∧ view State.len (step (pend (.header v11) midRun)) = some 19 := by decide

theorem witness_ErrorLeftOnlyByStartOrReset :
    (failed.st = .error ∧ failed.run = false) ∧ view State.st (step (pend (.write 0 1) failed)) = some .start
      ∧ view State.st (step (pend .reset failed)) = some .start
      ∧ view State.st (step (pend (.header v1) failed)) = some .done := by decide

theorem witness_ReportStandsUntilStartOrReset :
    isNext (exec .finish midRun) = true ∧ resting.run = false ∧ isNext (step (pend (.write 1 3) resting)) = true
      ∧ isNext (step (pend .reset resting)) = true ∧ isNext (step (pend (.write 0 1) resting)) = true
      ∧ isNext (step (pend (.header v1) resting)) = true := by decide

theorem witness_StatusTakesTwentyValues :
    BlockInv midRun ∧ midRun.statusReg = 0x15 ∧ BlockInv failed ∧ failed.statusReg = 0x148 :=
  ⟨midRun_inv, by decide, failed_inv, by decide⟩

end Sys2Proof.Tests
end

section
/-! The value of a range read (20_memory.md R52). -/

namespace Sys2Proof

/-- Horner's form of `leNat` unrolled: the byte `i` places above the lowest offset weighs `256 ^ i`. -/
theorem leNat_map_range' (B : Nat → Byte) (a n : Nat) :
    leNat ((List.range' a n).map B) = ((List.range n).map fun i => 256 ^ i * (B (a + i)).toNat).sum := by
  induction n generalizing a with
  | zero => rfl
  | succ n ih =>
    have hshift : ∀ i, 256 ^ (i + 1) * (B (a + (i + 1))).toNat = 256 * (256 ^ i * (B (a + 1 + i)).toNat) := fun i => by
      rw [Nat.pow_succ', Nat.mul_assoc, show a + (i + 1) = a + 1 + i by omega]
    rw [List.range'_succ, List.map_cons, leNat_cons, ih]
    simp [List.range_succ_eq_map, Function.comp_def, hshift, List.sum_map_mul_left]

open Machine in
/-- Settles O21: `readBytes_of_bytes` gives the bytes read, `leNat_map_range'` their value. -/
theorem memReadIsLittleEndian : Obligations.MemReadIsLittleEndian :=
  fun _ a n B h => ⟨_, readBytes_of_bytes h, leNat_map_range' B a n⟩

end Sys2Proof
end

section
/-! Decoding (30_encoding.md): the state codes of R84, and the two header formats of R70 to R73. -/

namespace Sys2Proof

open Machine Claims

/-! ### State codes -/

/-- R84: the micro-operation its code decodes to is the one a running state performs. -/
theorem selects_of_decode {q : SeqState} {i : Instr} (h : decode (.uop q.code) = .ok i) : Selects q q.code i := by
  refine ⟨rfl, h, fun s hrun hst hp => ?_⟩
  rw [step_nil hp, parserMove, if_pos hrun, ← parserStep_eq, hst, h]

/-- R84 assigns nothing to the terminal codes 7 and 8, nor to 9 to 15, which are no state. -/
theorem decode_uop_of_seven_le {c : BitVec 4} (h : 7 ≤ c.toNat) : decode (.uop c) = .error .noMicroOperation := by
  obtain ⟨k, hk⟩ := Nat.exists_eq_add_of_le' h
  rw [decode, decodeUop, hk]
  rfl

/-- Settles O4: every code by `selects_of_decode`, the codes from 7 on by `decode_uop_of_seven_le`. -/
theorem stateCodeSelectsMicroOperation : Obligations.StateCodeSelectsMicroOperation :=
  ⟨selects_of_decode rfl, selects_of_decode rfl, selects_of_decode rfl, selects_of_decode rfl, selects_of_decode rfl,
    selects_of_decode rfl, selects_of_decode rfl, rfl, rfl, fun _ => decode_uop_of_seven_le⟩

/-! ### Little-endian values as concatenations -/

/-- R11: the byte at the lowest offset is the least significant, so it stands last in the concatenation. -/
theorem ofNat_leNat_cons (w : Nat) (b : Byte) (bs : List Byte) :
    BitVec.ofNat (w + 8) (leNat (b :: bs)) = BitVec.ofNat w (leNat bs) ++ b := by
  have hb : b.toNat < 2 ^ 8 := b.isLt
  have hmod : leNat (b :: bs) % 2 ^ 8 = b.toNat := by rw [leNat_cons]; omega
  have hdiv : leNat (b :: bs) / 2 ^ 8 = leNat bs := by rw [leNat_cons]; omega
  apply BitVec.eq_of_toNat_eq
  rw [BitVec.toNat_append, ← Nat.shiftLeft_add_eq_or_of_lt hb, Nat.shiftLeft_eq, BitVec.toNat_ofNat, BitVec.toNat_ofNat,
    Nat.add_comm w 8, Nat.pow_add, Nat.mod_mul, hmod, hdiv, Nat.add_comm, Nat.mul_comm]

theorem leWord_four (b0 b1 b2 b3 : Byte) : leWord [b0, b1, b2, b3] = b3 ++ b2 ++ b1 ++ b0 := by
  rw [leWord, ofNat_leNat_cons 24, ofNat_leNat_cons 16, ofNat_leNat_cons 8, ofNat_leNat_one]

theorem leDword_eight (b0 b1 b2 b3 b4 b5 b6 b7 : Byte) :
    leDword [b0, b1, b2, b3, b4, b5, b6, b7] = b7 ++ b6 ++ b5 ++ b4 ++ b3 ++ b2 ++ b1 ++ b0 := by
  rw [leDword, ofNat_leNat_cons 56, ofNat_leNat_cons 48, ofNat_leNat_cons 40, ofNat_leNat_cons 32, ofNat_leNat_cons 24,
    ofNat_leNat_cons 16, ofNat_leNat_cons 8, ofNat_leNat_one]

/-- R79: the flag of the data-block field is the top bit of its last byte. -/
theorem blockFlagOf_append (b0 b1 b2 b3 : Byte) : blockFlagOf (b3 ++ b2 ++ b1 ++ b0) = b3.getLsbD 7 := by
  show (b3 ++ b2 ++ b1 ++ b0).getLsbD 31 = _
  simp only [BitVec.getLsbD_append]
  rfl

/-! ### The bytes after BD, from offset 6 on -/

/-- Format S has five bytes after BD and no other number of them (R72). -/
theorem decodeTailS_error {flg bd : Byte} {tail : List Byte} (h : tail.length ≠ 5) :
    ∃ e, decodeTailS flg bd tail = .error e := by
  unfold decodeTailS
  split
  · exact absurd rfl h
  · exact ⟨_, rfl⟩

/-- Format L has thirteen bytes after BD and no other number of them (R73). -/
theorem decodeTailL_error {flg bd : Byte} {tail : List Byte} (h : tail.length ≠ 13) :
    ∃ e, decodeTailL flg bd tail = .error e := by
  unfold decodeTailL
  split
  · exact absurd rfl h
  · exact ⟨_, rfl⟩

section

variable (b : Nat → Byte) (flg bd : Byte) (n : Nat) (i : Instr)

/-- R72: the header checksum at offset 6, the data-block field at 7. -/
theorem decodeTailS_eq_ok_iff :
    decodeTailS flg bd ((List.range' 6 n).map b) = .ok i ↔
      n = 5 ∧ i = .frameS ⟨flgFields flg, bdFields bd, b 6, (b 10).getLsbD 7,
        (b 10 ++ b 9 ++ b 8 ++ b 7 : BitVec 32).extractLsb' 0 31⟩ := by
  by_cases hn : n = 5
  · subst hn
    simp [List.range'_succ, decodeTailS, leWord_four, blockFlagOf_append, blockSizeOf, eq_comm]
  · obtain ⟨e, he⟩ := decodeTailS_error (flg := flg) (bd := bd) (tail := (List.range' 6 n).map b) (by simpa using hn)
    simp [he, hn]

/-- R73: the content size at offset 6, the header checksum at 14, the data-block field at 15. -/
theorem decodeTailL_eq_ok_iff :
    decodeTailL flg bd ((List.range' 6 n).map b) = .ok i ↔
      n = 13 ∧ i = .frameL ⟨flgFields flg, bdFields bd, b 14, (b 18).getLsbD 7,
          (b 18 ++ b 17 ++ b 16 ++ b 15 : BitVec 32).extractLsb' 0 31⟩
        (b 13 ++ b 12 ++ b 11 ++ b 10 ++ b 9 ++ b 8 ++ b 7 ++ b 6 : BitVec 64) := by
  by_cases hn : n = 13
  · subst hn
    simp [List.range'_succ, decodeTailL, leWord_four, leDword_eight, blockFlagOf_append, blockSizeOf, eq_comm]
  · obtain ⟨e, he⟩ := decodeTailL_error (flg := flg) (bd := bd) (tail := (List.range' 6 n).map b) (by simpa using hn)
    simp [he, hn]

/-! ### Whole headers -/

/-- Without room for the magic number, FLG and BD nothing decodes (R80). -/
theorem decodeFrame_error_of_length_lt_six {bs : List Byte} (h : bs.length < 6) : ∃ e, decodeFrame bs = .error e := by
  unfold decodeFrame
  split
  · split
    · split
      · simp at h
        omega
      · exact ⟨_, rfl⟩
    · exact ⟨_, rfl⟩
  · exact ⟨_, rfl⟩

/-- R70: past the magic number, bit 3 of FLG alone says which of the two readings the rest has. -/
theorem decodeFrame_eq_ok_iff (m0 m1 m2 m3 : Byte) (tail : List Byte) :
    decodeFrame (m0 :: m1 :: m2 :: m3 :: flg :: bd :: tail) = .ok i ↔
      (m3 ++ m2 ++ m1 ++ m0 : BitVec 32) = Config.magicConst ∧
        ((contentSizeBit flg = false ∧ decodeTailS flg bd tail = .ok i) ∨
          (contentSizeBit flg = true ∧ decodeTailL flg bd tail = .ok i)) := by
  rw [decodeFrame, leWord_four]
  by_cases hm : (m3 ++ m2 ++ m1 ++ m0 : BitVec 32) = Config.magicConst
  · cases contentSizeBit flg with
    | false => simp [hm]
    | true => simp [hm]
  · simp [hm]

end

/-- Settles O3: fewer than six bytes decode to nothing, the others by `decodeFrame_eq_ok_iff` and the two tails. -/
theorem headerFormatChosenByFlgBit3 : Obligations.HeaderFormatChosenByFlgBit3 := by
  intro b n i
  rw [decode]
  by_cases hn : n < 6
  · obtain ⟨e, he⟩ := decodeFrame_error_of_length_lt_six (bs := (List.range n).map b) (by simpa using hn)
    rw [he]
    exact ⟨nofun, fun ⟨_, _, h⟩ => by omega⟩
  · obtain ⟨k, rfl⟩ := Nat.exists_eq_add_of_le' (Nat.le_of_not_lt hn)
    have hbytes : (List.range (k + 6)).map b =
        b 0 :: b 1 :: b 2 :: b 3 :: b 4 :: b 5 :: (List.range' 6 k).map b := by
      simp [List.range_eq_range', List.range'_succ]
    rw [hbytes, decodeFrame_eq_ok_iff, decodeTailS_eq_ok_iff, decodeTailL_eq_ok_iff]
    simp [Config.magicConst, contentSizeBit, and_left_comm]

end Sys2Proof
end

section
/-! CHKMAGIC (40_magic.md): length first, then the value. -/

namespace Sys2Proof

open Machine

/-- R52: a range read whose lowest byte is there puts it before the rest of the range. -/
theorem readBytes_succ {m : List Host.Cell} {a n : Nat} {b : Byte} {bs : List Byte} (h : readByte m a = some b)
    (hs : readBytes m (a + 1) n = some bs) : readBytes m a (n + 1) = some (b :: bs) := by
  rw [readBytes, h, hs]

/-- R101: the length test comes first, and on failing it nothing is read. -/
theorem execChkmagic_short {s : State} (hl : s.len.toNat < 4) :
    execChkmagic s = .next (raise .truncatedHeader s) :=
  readField_short (by omega)

/-- R100: past the length test, the outcome turns on the value read; `MAGIC` and `NREAD` are written in both. -/
theorem execChkmagic_of_bytes {s : State} {bs : List Byte} (hl : 4 ≤ s.len.toNat)
    (h : readBytes s.buf 0 4 = some bs) :
    execChkmagic s = .next (if leWord bs = Config.magicConst then
      { s with magic := leWord bs, nread := 4, st := .magicRead }
    else raise .invalidMagic { s with magic := leWord bs, nread := 4 }) := by
  rw [execChkmagic, readField_some hl h]
  exact congrArg _ (ite_not ..)

/-- Settles O9: the two sides of `LEN = 4`, and `leWord_four` for the value of the four bytes. -/
theorem chkmagicReadsAndComparesMagic : Obligations.ChkmagicReadsAndComparesMagic := by
  refine ⟨selects_of_decode rfl, fun s => ⟨execChkmagic_short, fun b0 b1 b2 b3 hl h0 h1 h2 h3 => ?_⟩⟩
  have hread : readBytes s.buf 0 4 = some [b0, b1, b2, b3] :=
    readBytes_succ h0 (readBytes_succ h1 (readBytes_succ h2 (readBytes_succ h3 rfl)))
  rw [← leWord_four]
  exact execChkmagic_of_bytes hl hread

end Sys2Proof
end

section
/-! RDFLG and RDBD (41_descriptors.md): one byte, length first, all eight bits kept. -/

namespace Sys2Proof

open Machine

/-- R202: a guarded read of one byte that is there goes on with that byte. -/
theorem readField_byte {s : State} {a : Nat} {b : Byte} {k : List Byte → Host.Outcome State Fault Refusal}
    (hl : a + 1 ≤ s.len.toNat) (h : readByte s.buf a = some b) : readField s a 1 k = k [b] :=
  readField_some hl (readBytes_succ h rfl)

/-- R110: below 5 bytes RDFLG reads nothing. -/
theorem execRdflg_short {s : State} (hl : s.len.toNat < 5) : execRdflg s = .next (raise .truncatedHeader s) :=
  readField_short hl

/-- R110: `FLG` receives the byte at offset 4, whatever its value. -/
theorem execRdflg_of_byte {s : State} {b : Byte} (hl : 5 ≤ s.len.toNat) (h : readByte s.buf 4 = some b) :
    execRdflg s = .next { s with flg := b, nread := 5, st := .flagsRead } := by
  rw [execRdflg, readField_byte hl h, ofNat_leNat_one]

/-- R114: below 6 bytes RDBD reads nothing. -/
theorem execRdbd_short {s : State} (hl : s.len.toNat < 6) : execRdbd s = .next (raise .truncatedHeader s) :=
  readField_short hl

/-- R114: `BD` receives the byte at offset 5, whatever its value. -/
theorem execRdbd_of_byte {s : State} {b : Byte} (hl : 6 ≤ s.len.toNat) (h : readByte s.buf 5 = some b) :
    execRdbd s = .next { s with bd := b, nread := 6, st := .blockDescRead } := by
  rw [execRdbd, readField_byte hl h, ofNat_leNat_one]

/-- Settles O10: the two sides of `LEN = 5`, `execRdflg_short` and `execRdflg_of_byte`. -/
theorem rdflgKeepsTheWholeByte : Obligations.RdflgKeepsTheWholeByte :=
  ⟨selects_of_decode rfl, fun _ => ⟨execRdflg_short, fun _ => execRdflg_of_byte⟩⟩

/-- Settles O11: the two sides of `LEN = 6`, `execRdbd_short` and `execRdbd_of_byte`. -/
theorem rdbdKeepsTheWholeByte : Obligations.RdbdKeepsTheWholeByte :=
  ⟨selects_of_decode rfl, fun _ => ⟨execRdbd_short, fun _ => execRdbd_of_byte⟩⟩

/-- R76, R115: three bits of the byte, from bit 4 up. -/
theorem bdFields_blockMaxSizeCode_toNat (b : Byte) : (bdFields b).blockMaxSizeCode.toNat = b.toNat / 16 % 8 := by
  rw [bdFields, BitVec.extractLsb'_toNat, Nat.shiftRight_eq_div_pow]

/-- Settles O23: the view of `BD` is that field of its byte. -/
theorem bdFieldIsBits6To4 : Obligations.BdFieldIsBits6To4 :=
  fun s => bdFields_blockMaxSizeCode_toNat s.bd

end Sys2Proof
end

section
/-! BRCSIZE (42_content_size_offset.md): the content size at `[6, 14)`, read only when bit 3 of FLG says it is there. -/

namespace Sys2Proof

open Machine

/-- R120: with a content size announced, BRCSIZE reads nothing below 14 bytes. -/
theorem execBrcsize_short {s : State} (hc : s.flgCSize = true) (hl : s.len.toNat < 14) :
    execBrcsize s = .next (raise .truncatedHeader s) := by
  rw [execBrcsize_present hc, readField_short hl]

/-- R120, R122: with the eight bytes at offset 6 there, `CSIZE` receives them, the one at 13 on top. -/
theorem execBrcsize_of_bytes {s : State} {B : Nat → Byte} (hc : s.flgCSize = true) (hl : 14 ≤ s.len.toNat)
    (h : ∀ a, 6 ≤ a → a < 14 → readByte s.buf a = some (B a)) :
    execBrcsize s = .next { s with
      csize := B 13 ++ B 12 ++ B 11 ++ B 10 ++ B 9 ++ B 8 ++ B 7 ++ B 6, csizeValid := true, nread := 14,
      st := .contentSizeBranch } := by
  have hread : readBytes s.buf 6 8 = some ((List.range' 6 8).map B) :=
    readBytes_of_bytes fun i hi => h (6 + i) (by omega) (by omega)
  rw [execBrcsize_present hc, readField_some hl hread, ← leDword_eight]
  rfl

/-- Settles O12: the false arm by `execBrcsize_absent`, the two sides of `LEN = 14` in the true arm by
`execBrcsize_short` and `execBrcsize_of_bytes`. -/
theorem brcsizeReadsContentSizeWhenPresent : Obligations.BrcsizeReadsContentSizeWhenPresent :=
  ⟨selects_of_decode rfl, fun _ => ⟨execBrcsize_absent, execBrcsize_short, fun _ => execBrcsize_of_bytes⟩⟩

end Sys2Proof
end

section
/-! RDHC and `HC_CALC` (43_header_checksum.md): the stored byte, the hash of the span below it, the reporting byte. -/

namespace Sys2Proof

open Machine

/-- R130: below `hc_off + 1` bytes RDHC reads nothing. -/
theorem execRdhc_short {s : State} (hl : s.len.toNat < hcOff s.flgCSize + 1) :
    execRdhc s = .next (raise .truncatedHeader s) :=
  readField_short hl

/-- R130, R131: with the bytes from offset 4 up to the stored byte there, the hash input is `[4, hc_off)` in
increasing offset order, and the stored byte is no part of it. -/
theorem execRdhc_of_bytes {s : State} {cs : Bool} {B : Nat → Byte} (hc : s.flgCSize = cs)
    (hl : hcOff cs + 1 ≤ s.len.toNat) (h : ∀ a, 4 ≤ a → a < hcOff cs + 1 → readByte s.buf a = some (B a)) :
    execRdhc s = .next { s with
      hcStored := B (hcOff cs), hash := headerHash ((List.range' 4 (hashLen cs)).map B),
      nread := BitVec.ofNat 5 (hcOff cs + 1), st := .checksumRead } := by
  have hoff : hcOff cs = 4 + hashLen cs := by
    rw [hcOff_eq, hashLen_eq]
    cases cs <;> rfl
  have hstored : readByte s.buf (hcOff cs) = some (B (hcOff cs)) := h _ (by omega) (by omega)
  have hspan : readBytes s.buf 4 (hashLen cs) = some ((List.range' 4 (hashLen cs)).map B) :=
    readBytes_of_bytes fun i hi => h (4 + i) (by omega) (by omega)
  rw [execRdhc, hc, readField_byte hl hstored, withBytes_some hspan, ofNat_leNat_one]

/-- Settles O13: the length test by `execRdhc_short` (`hc_off + 1` is `blk_off`), and `execRdhc_of_bytes` at each of
the two formats. -/
theorem rdhcStoresByteAndHashesSpan : Obligations.RdhcStoresByteAndHashesSpan :=
  ⟨selects_of_decode rfl, fun s => ⟨fun hl => execRdhc_short (hl.trans_eq (blkOff_eq s.flgCSize).symm),
    fun _ => ⟨execRdhc_of_bytes (cs := false), execRdhc_of_bytes (cs := true)⟩⟩⟩

/-- R140: bits 15:8 of a hash, as arithmetic. -/
theorem reportingByte_toNat (h : Word) : (reportingByte h).toNat = h.toNat / 256 % 256 := by
  rw [reportingByte, BitVec.extractLsb'_toNat, Nat.shiftRight_eq_div_pow]

/-- R140: the reporting byte is the second byte of the little-endian encoding. -/
theorem leBytes_one_eq_reportingByte (h : Word) : (leBytes 4 h.toNat)[1]? = some (reportingByte h) := by
  have hbyte : BitVec.ofNat 8 (h.toNat / 256) = reportingByte h := by
    apply BitVec.eq_of_toNat_eq
    rw [BitVec.toNat_ofNat, reportingByte_toNat]
  simp [leBytes_succ, hbyte]

/-- Settles O27: `HC_CALC` is the reporting byte of `HASH`, read both ways. -/
theorem reportingByteIsSecondLowest : Obligations.ReportingByteIsSecondLowest :=
  fun s => ⟨reportingByte_toNat s.hash, leBytes_one_eq_reportingByte s.hash⟩

end Sys2Proof
end

section
/-! RDBLK (44_data_block.md): four bytes at `blk_off`, length first; the flag on top of a 31-bit size, as one word. -/

namespace Sys2Proof

open Machine

/-! ### The data-block field as a word -/

/-- R52: 32 bits read back from their little-endian encoding. -/
theorem leWord_leBytes (v : Nat) : leWord (leBytes 4 v) = BitVec.ofNat 32 v := by
  apply BitVec.eq_of_toNat_eq
  rw [leWord, leNat_leBytes, BitVec.toNat_ofNat, BitVec.toNat_ofNat]
  exact Nat.mod_mod v (2 ^ 32)

/-- R79, R151: the field's word is `f * 2^31 + size`. -/
theorem blockWord_eq_ofNat (f : Bool) (size : BitVec 31) :
    blockWord f size = BitVec.ofNat 32 (f.toNat * 2 ^ 31 + size.toNat) := by
  have hsize : size.toNat < 2 ^ 31 := size.isLt
  have hf : f.toNat < 2 := f.toNat_lt
  apply BitVec.eq_of_toNat_eq
  rw [blockWord, BitVec.toNat_append, ← Nat.shiftLeft_add_eq_or_of_lt hsize, Nat.shiftLeft_eq, BitVec.toNat_ofBool,
    BitVec.toNat_ofNat, Nat.mod_eq_of_lt (by omega)]

@[simp] theorem blockFlagOf_blockWord (f : Bool) (size : BitVec 31) : blockFlagOf (blockWord f size) = f := by
  rw [blockFlagOf, blockWord, BitVec.getLsbD_append]
  simp

@[simp] theorem blockSizeOf_blockWord (f : Bool) (size : BitVec 31) : blockSizeOf (blockWord f size) = size :=
  BitVec.extractLsb'_append_eq_right

/-- R11, R52: a range read over the little-endian encoding of `v` gives that encoding. -/
theorem readBytes_of_leBytes {m : List Host.Cell} {a n v : Nat}
    (h : ∀ i, i < n → readByte m (a + i) = some (BitVec.ofNat 8 (v / 256 ^ i))) :
    readBytes m a n = some (leBytes n v) := by
  induction n generalizing a v with
  | zero => rfl
  | succ n ih =>
    have h0 : readByte m a = some (BitVec.ofNat 8 v) := by simpa using h 0 n.succ_pos
    refine readBytes_succ h0 (ih fun i hi => ?_)
    rw [Nat.div_div_eq_div_mul, ← Nat.pow_succ', Nat.add_assoc, Nat.add_comm 1 i]
    exact h (i + 1) (Nat.succ_lt_succ hi)

/-! ### The two sides of the length test -/

/-- R150: below `end_off` bytes RDBLK reads nothing. -/
theorem execRdblk_short {s : State} (hl : s.len.toNat < endOff s.flgCSize) :
    execRdblk s = .next (raise .truncatedHeader s) :=
  readField_short hl

/-- R150: from `end_off` bytes on, the word at `blk_off` is split into flag and size. -/
theorem execRdblk_of_bytes {s : State} {bs : List Byte} (hl : blkOff s.flgCSize + 4 ≤ s.len.toNat)
    (h : readBytes s.buf (blkOff s.flgCSize) 4 = some bs) :
    execRdblk s = .next { s with
      blkFlag := blockFlagOf (leWord bs), blkSize := blockSizeOf (leWord bs),
      nread := BitVec.ofNat 5 (endOff s.flgCSize), st := .dataBlockRead } := by
  rw [execRdblk, readField_some hl h]

/-- The value `NREAD` receives, in each format. -/
theorem ofNat_endOff (cs : Bool) : BitVec.ofNat 5 (endOff cs) = if cs then 19 else 11 := by cases cs <;> rfl

/-- Settles O15: the bytes read are those of `blockWord f size`, from which flag and size come back. -/
theorem rdblkInvertsThePacking : Obligations.RdblkInvertsThePacking := by
  intro s f size off hoff hl hbytes
  obtain rfl : off = blkOff s.flgCSize := hoff.trans (blkOff_eq s.flgCSize).symm
  have hword : leWord (leBytes 4 (f.toNat * 2 ^ 31 + size.toNat)) = blockWord f size := by
    rw [leWord_leBytes, blockWord_eq_ofNat]
  refine ⟨_, execRdblk_of_bytes hl (readBytes_of_leBytes hbytes), ?_⟩
  rw [hword, blockFlagOf_blockWord, blockSizeOf_blockWord]
  exact ⟨rfl, rfl, blockWord_eq_ofNat f size⟩

/-- Settles O14: the length test by `execRdblk_short`; past it, `leWord_four` is the word read and
`blockFlagOf_append` its top bit. -/
theorem rdblkSplitsFlagAndSize : Obligations.RdblkSplitsFlagAndSize := by
  refine ⟨selects_of_decode rfl, fun s => ⟨fun hl => execRdblk_short (hl.trans_eq (endOff_eq s.flgCSize).symm),
    fun off b0 b1 b2 b3 hoff hl h0 h1 h2 h3 => ?_⟩⟩
  obtain rfl : off = blkOff s.flgCSize := hoff.trans (blkOff_eq s.flgCSize).symm
  have hread : readBytes s.buf (blkOff s.flgCSize) 4 = some [b0, b1, b2, b3] :=
    readBytes_succ h0 (readBytes_succ h1 (readBytes_succ h2 (readBytes_succ h3 rfl)))
  have hexec := execRdblk_of_bytes hl hread
  rwa [leWord_four, blockFlagOf_append, ofNat_endOff] at hexec

end Sys2Proof
end

section
/-! FINISH and the sequencer (45_finish_and_sequencing.md): the comparison that ends a run, and R165's step table. -/

namespace Sys2Proof

open Machine Safety Claims

/-! ### FINISH -/

section

variable {s : State}

/-- R160: without a fatal mismatch the run is done, and `WARN_HC` records the comparison. -/
theorem execFinish_of_not_fatal (h : checksumFatal s = false) :
    execFinish s = .next { s with warnHc := checksumDiffers s, st := .done, run := false } := by
  rw [execFinish, h]
  rfl

/-- R160: a fatal mismatch writes `WARN_HC` before it raises. -/
theorem execFinish_of_fatal (h : checksumFatal s = true) :
    execFinish s = .next (raise .checksumMismatch { s with warnHc := checksumDiffers s }) := by
  rw [execFinish, h]
  rfl

/-- Equal bytes: the comparison of R160 answers 0. -/
theorem checksumDiffers_of_eq (h : s.hcStored = s.hash.extractLsb' 8 8) : checksumDiffers s = false :=
  bne_eq_false_iff_eq.2 h

/-- Different bytes: the comparison of R160 answers 1. -/
theorem checksumDiffers_of_ne (h : s.hcStored ≠ s.hash.extractLsb' 8 8) : checksumDiffers s = true :=
  bne_iff_ne.2 h

end

/-- Settles O16: a mismatch is fatal only where the bytes differ and `STRICT = 1`; `execFinish_of_not_fatal` gives the
first two cases, `execFinish_of_fatal` the third. -/
theorem finishComparesChecksumBytes : Obligations.FinishComparesChecksumBytes := by
  refine ⟨selects_of_decode rfl, fun s => ⟨fun heq => ?_, fun hne hstrict => ?_, fun hne hstrict => ?_⟩⟩
  · have hd := checksumDiffers_of_eq heq
    have h := execFinish_of_not_fatal (s := s) (by rw [checksumFatal, hd, Bool.false_and])
    rwa [hd] at h
  · have hd := checksumDiffers_of_ne hne
    have h := execFinish_of_not_fatal (s := s) (by rw [checksumFatal, hstrict, Bool.and_false])
    rwa [hd] at h
  · have hd := checksumDiffers_of_ne hne
    have h := execFinish_of_fatal (s := s) (by rw [checksumFatal, hd, hstrict, Bool.and_self])
    rwa [hd] at h

section

variable {s t : State}

/-! ### With the host's duty done, no parser step stops -/

/-- R185: what lies below `LEN` and within the window can be read. -/
theorem readBytes_of_bufReady (hb : BufReady s) {a n : Nat} (hl : a + n ≤ s.len.toNat) (hw : a + n ≤ windowLen) :
    ∃ bs, readBytes s.buf a n = some bs :=
  readBytes_isSome fun _ _ hlt => hb _ (lt_min (hlt.trans_le hl) (hlt.trans_le hw))

/-- A guarded read within the window answers a next state when what follows it does. -/
theorem readField_answers (hb : BufReady s) {a n : Nat} {k : List Byte → Host.Outcome State Fault Refusal}
    (hw : a + n ≤ windowLen) (hk : a + n ≤ s.len.toNat → ∀ bs, ∃ t, k bs = .next t) :
    ∃ t, readField s a n k = .next t := by
  by_cases hl : s.len.toNat < a + n
  · exact ⟨_, readField_short hl⟩
  · have hl := Nat.le_of_not_lt hl
    obtain ⟨bs, hbs⟩ := readBytes_of_bufReady hb hl hw
    rw [readField_some hl hbs]
    exact hk hl bs

theorem execBrcsize_answers (hb : BufReady s) : ∃ t, execBrcsize s = .next t := by
  cases hc : s.flgCSize with
  | false => exact ⟨_, execBrcsize_absent hc⟩
  | true =>
    rw [execBrcsize_present hc]
    exact readField_answers hb (by decide) fun _ _ => ⟨_, rfl⟩

/-- RDHC reads twice: the length test of the stored byte covers the hash input, which lies below it (R131). -/
theorem execRdhc_answers (hb : BufReady s) : ∃ t, execRdhc s = .next t := by
  have hw : hcOff s.flgCSize + 1 ≤ windowLen := by cases s.flgCSize <;> decide
  have hspan : 4 + hashLen s.flgCSize ≤ hcOff s.flgCSize + 1 := by cases s.flgCSize <;> decide
  refine readField_answers hb hw fun hl _ => ?_
  obtain ⟨p, hp⟩ := readBytes_of_bufReady hb (hspan.trans hl) (hspan.trans hw)
  exact ⟨_, withBytes_some hp⟩

theorem execRdblk_answers (hb : BufReady s) : ∃ t, execRdblk s = .next t :=
  readField_answers hb (by cases s.flgCSize <;> decide) fun _ _ => ⟨_, rfl⟩

/-- In a running state over a ready buffer the parser's step is neither refused nor a fault. -/
theorem parserStep_answers (hb : BufReady s) (hlive : terminal s.st = false) : ∃ t, parserStep s = .next t := by
  unfold parserStep
  cases hst : s.st with
  | start => exact readField_answers hb (by decide) fun _ _ => ⟨_, rfl⟩
  | magicRead => exact readField_answers hb (by decide) fun _ _ => ⟨_, rfl⟩
  | flagsRead => exact readField_answers hb (by decide) fun _ _ => ⟨_, rfl⟩
  | blockDescRead => exact execBrcsize_answers hb
  | contentSizeBranch => exact execRdhc_answers hb
  | checksumRead => exact execRdblk_answers hb
  | dataBlockRead => exact ⟨_, rfl⟩
  | done => rw [hst] at hlive; cases hlive
  | error => rw [hst] at hlive; cases hlive

/-! ### R165's table -/

/-- R84, R165: the running states are those with a micro-operation, and it is the parser's step. -/
theorem parserStep_eq_exec_assigned (hlive : terminal s.st = false) :
    ∃ i, assigned s.st = some i ∧ parserStep s = exec i s := by
  unfold parserStep
  cases hst : s.st with
  | start => exact ⟨.chkmagic, rfl, rfl⟩
  | magicRead => exact ⟨.rdflg, rfl, rfl⟩
  | flagsRead => exact ⟨.rdbd, rfl, rfl⟩
  | blockDescRead => exact ⟨.brcsize, rfl, rfl⟩
  | contentSizeBranch => exact ⟨.rdhc, rfl, rfl⟩
  | checksumRead => exact ⟨.rdblk, rfl, rfl⟩
  | dataBlockRead => exact ⟨.finish, rfl, rfl⟩
  | done => rw [hst] at hlive; cases hlive
  | error => rw [hst] at hlive; cases hlive

/-- R165, a row of the table: from `s` the step reaches `t`, the successor state or `Error`. -/
def TableRow (s t : State) : Prop :=
  (t.st = successor s.st ∧ t.err = s.err ∧ t.run = (t.st != .done))
    ∨ (t.st = .error ∧ t.run = false ∧ mayRaise s t.err)

/-- R206: an error entry with an error of the table's last column is a row of the table. -/
theorem tableRow_raise {u : State} {e : ErrCode} (h : mayRaise s e) : TableRow s (raise e u) :=
  .inr ⟨rfl, rfl, h⟩

/-- R165: whatever a parser step answers is a row of the table. -/
theorem parserStep_tableRow (hr : s.run = true) (h : parserStep s = .next t) : TableRow s t := by
  cases hst : s.st <;> simp only [parserStep, hst] at h
  case start =>
    rcases execChkmagic_cases h with ⟨_, rfl⟩ | ⟨_, _, _, ⟨_, rfl⟩ | ⟨_, rfl⟩⟩
    · exact tableRow_raise (by simp [mayRaise, hst])
    · exact tableRow_raise (by simp [mayRaise, hst])
    · exact .inl ⟨by rw [hst]; rfl, rfl, hr⟩
  case magicRead =>
    rcases execRdflg_cases h with ⟨_, rfl⟩ | ⟨_, _, _, rfl⟩
    · exact tableRow_raise (by simp [mayRaise, hst])
    · exact .inl ⟨by rw [hst]; rfl, rfl, hr⟩
  case flagsRead =>
    rcases execRdbd_cases h with ⟨_, rfl⟩ | ⟨_, _, _, rfl⟩
    · exact tableRow_raise (by simp [mayRaise, hst])
    · exact .inl ⟨by rw [hst]; rfl, rfl, hr⟩
  case blockDescRead =>
    rcases execBrcsize_cases h with ⟨_, rfl⟩ | ⟨hc, _, rfl⟩ | ⟨_, _, _, _, rfl⟩
    · exact .inl ⟨by rw [hst]; rfl, rfl, hr⟩
    · exact tableRow_raise (by rw [mayRaise, hst]; exact ⟨rfl, hc⟩)
    · exact .inl ⟨by rw [hst]; rfl, rfl, hr⟩
  case contentSizeBranch =>
    rcases execRdhc_cases h with ⟨_, rfl⟩ | ⟨_, _, _, _, _, rfl⟩
    · exact tableRow_raise (by simp [mayRaise, hst])
    · exact .inl ⟨by rw [hst]; rfl, rfl, hr⟩
  case checksumRead =>
    rcases execRdblk_cases h with ⟨_, rfl⟩ | ⟨_, _, _, rfl⟩
    · exact tableRow_raise (by simp [mayRaise, hst])
    · exact .inl ⟨by rw [hst]; rfl, rfl, hr⟩
  case dataBlockRead =>
    rcases execFinish_cases h with ⟨_, hstrict, rfl⟩ | ⟨_, rfl⟩
    · exact tableRow_raise (by rw [mayRaise, hst]; exact ⟨rfl, hstrict⟩)
    · exact .inl ⟨by rw [hst]; rfl, rfl, rfl⟩
  case done => cases h
  case error => cases h

end

/-- Settles O8: at rest by `step_nil`; in a run the step is the assigned micro-operation, `parserStep_answers` says it
answers and `parserStep_tableRow` what. -/
theorem sequencerStepTable : Obligations.SequencerStepTable := by
  intro s hp
  have hstep : step s = if s.run then parserStep s else .next s := step_nil hp
  refine ⟨fun hrest => ?_, fun hrun hlive hb => ?_⟩
  · rw [hstep, hrest]
    rfl
  · rw [if_pos hrun] at hstep
    obtain ⟨i, hi, hexec⟩ := parserStep_eq_exec_assigned hlive
    obtain ⟨t, ht⟩ := parserStep_answers hb hlive
    exact ⟨i, t, hi, hstep.trans hexec, hexec.symm.trans ht, parserStep_tableRow hrun ht⟩

end Sys2Proof
end

section
/-! START, WRREG and RDREG (46_host_commands.md): what a register write does at rest and during a run, and what a
register read returns. -/

namespace Sys2Proof

open Machine

/-! ### What the host commands do -/

section

variable {s t : State}

/-- R180: a CTRL write with data bit 0 = 1 is START, strict as data bit 1 says. -/
theorem decodeWrite_zero_of_bit0 {v : Word} (h : v.getLsbD 0 = true) :
    decodeWrite 0 v = .start (v.getLsbD 1) := by
  simp [decodeWrite, h]

/-- R180: at rest START begins a run. -/
theorem execStart_rest (h : s.run = false) (strict : Bool) : execStart strict s = .next (beginRun strict s) := by
  simp [execStart, h]

/-- R182: during a run START is ignored. -/
theorem execStart_running (h : s.run = true) (strict : Bool) : execStart strict s = .next s := by
  simp [execStart, h]

/-- R182: during a run WRREG is ignored, whatever the register and the data. -/
theorem execWrreg_running (h : s.run = true) (n : Nat) (v : Word) : execWrreg n v s = .next s := by
  simp [execWrreg, h]

/-- R41, R183: at rest a CTRL write is `writeCtrl`. -/
theorem execWrreg_ctrl (h : s.run = false) (v : Word) : execWrreg 0 v s = .next (writeCtrl v s) := by
  simp [execWrreg, h]

/-- R183: at rest a LEN write writes `LEN`. -/
theorem execWrreg_len (h : s.run = false) (v : Word) : execWrreg 1 v s = .next { s with len := v } := by
  simp [execWrreg, h]

/-- R43, R183: registers from 2 on are read-only or unmapped, also during a run. -/
theorem execWrreg_of_two_le {n : Nat} (h : 2 ≤ n) (v : Word) : execWrreg n v s = .next s := by
  obtain ⟨k, rfl⟩ := Nat.exists_eq_add_of_le' h
  exact congrArg _ (ite_self s)

/-- R41: with data bit 0 = 0 a CTRL write writes `STRICT` alone. -/
theorem writeCtrl_of_not_bit0 {v : Word} (h : v.getLsbD 0 = false) :
    writeCtrl v s = { s with strict := v.getLsbD 1 } := by
  rw [writeCtrl, h]
  rfl

/-- R183: with data bit 0 = 1 a CTRL write begins a run; START's own write of `STRICT` is the same one. -/
theorem writeCtrl_of_bit0 {v : Word} (h : v.getLsbD 0 = true) : writeCtrl v s = beginRun (v.getLsbD 1) s := by
  rw [writeCtrl, h]
  rfl

/-- R182: during a run a register write changes nothing, START and WRREG alike. -/
theorem exec_decodeWrite_running (h : s.run = true) (n : Nat) (v : Word) : exec (decodeWrite n v) s = .next s := by
  unfold decodeWrite
  split
  · exact execStart_running h _
  · exact execWrreg_running h n v

/-! ### Which steps can end a run -/

theorem popMove_of_pending {m : Move} {r : List Move} (h : s.pending = m :: r) :
    popMove s = { s with pending := r } := by
  rw [popMove, h, List.tail_cons]

/-- R182: the step of a pending register write during a run only takes the move. -/
theorem step_write_running {n : Nat} {v : Word} {r : List Move} (hr : s.run = true)
    (h : s.pending = .write n v :: r) : step s = .next { s with pending := r } := by
  rw [step_write h, popMove_of_pending h]
  exact exec_decodeWrite_running (s := { s with pending := r }) hr n v

theorem fillBuffer_run {a : Nat} {bs : List Byte} (h : fillBuffer a bs s = .next t) : t.run = s.run := by
  rw [(fillBuffer_next h).1]

theorem execRdreg_run {n : Nat} (h : execRdreg n s = .next t) : t.run = s.run := by
  injection h with h
  rw [← h, returnWord_run]

theorem pollAgain_keeps_run (s : State) : (pollAgain s).run = s.run := by
  obtain ⟨ms, h⟩ := pollAgain_eq s
  rw [h]

end

/-- Settles O29: the two ignored writes by `step_write_running`; the moves that are not named in the second part
leave `RUN` as it is. -/
theorem commandsIgnoredWhileRunning : Obligations.CommandsIgnoredWhileRunning := by
  refine ⟨fun s v r hrun => ⟨step_write_running hrun, step_write_running hrun⟩, fun s t hrun hstep hend => ?_⟩
  have hne : t.run ≠ s.run := by simp [hrun, hend]
  match hp : s.pending with
  | [] => exact .inl rfl
  | .parserTurn :: r => exact .inr (.inl ⟨r, rfl⟩)
  | .reset :: r => exact .inr (.inr (.inl ⟨r, rfl⟩))
  | .header bs :: r => exact .inr (.inr (.inr ⟨bs, r, rfl⟩))
  | .write n v :: _ =>
    rw [step_write_running hrun hp] at hstep
    injection hstep with hstep
    exact absurd (congrArg State.run hstep).symm hne
  | .read n :: _ => exact absurd (execRdreg_run ((step_read hp).symm.trans hstep)) hne
  | .fill a bs :: _ => exact absurd (fillBuffer_run ((step_fill hp).symm.trans hstep)) hne
  | .pollStatus :: _ =>
    have hrun' := execRdreg_run ((step_poll hp).symm.trans hstep)
    exact absurd (hrun'.trans (pollAgain_keeps_run _)) hne
  | .parse bs strict :: _ =>
    rw [step_parse hp] at hstep
    injection hstep with hstep
    exact absurd (congrArg State.run hstep).symm hne

/-- Settles O28: `decodeWrite_zero_of_bit0` for the write, and START's two cases. -/
theorem startClearsAndRuns : Obligations.StartClearsAndRuns :=
  ⟨fun _ hv => congrArg Except.ok (decodeWrite_zero_of_bit0 hv),
    fun _ strict => ⟨fun hr => execStart_rest hr strict, fun hr => execStart_running hr strict⟩⟩

/-- Settles O30: WRREG's cases by register number and `RUN`; a CTRL write with data bit 0 = 1 and START are the same
`beginRun`. -/
theorem wrregWritesCtrlAndLenOnly : Obligations.WrregWritesCtrlAndLenOnly := by
  refine fun s n v => ⟨?_, ?_, ?_, ?_⟩
  · rintro rfl hr hv
    exact (execWrreg_ctrl hr v).trans (congrArg _ (writeCtrl_of_not_bit0 hv))
  · rintro rfl hr hv
    calc execWrreg 0 v s = .next (writeCtrl v s) := execWrreg_ctrl hr v
      _ = .next (beginRun (v.getLsbD 1) s) := by rw [writeCtrl_of_bit0 hv]
      _ = execStart (v.getLsbD 1) s := (execStart_rest hr _).symm
  · rintro rfl hr
    exact execWrreg_len hr v
  · rintro (⟨_, hr⟩ | hn)
    · exact execWrreg_running hr n v
    · exact execWrreg_of_two_le hn v

/-! ### The register map as arithmetic (R40 to R43) -/

/-- A concatenation's value: the upper part weighs `2 ^ n` above a lower part of `n` bits. -/
theorem toNat_append_eq_add {m n : Nat} (x : BitVec m) (y : BitVec n) :
    (x ++ y).toNat = 2 ^ n * x.toNat + y.toNat := by
  rw [BitVec.toNat_append, ← Nat.shiftLeft_add_eq_or_of_lt y.isLt, Nat.shiftLeft_eq, Nat.mul_comm]

section

variable (s : State)

/-- R41: `STRICT` at bit 1. -/
theorem ctrlReg_toNat : s.ctrlReg.toNat = 2 * s.strict.toNat := by
  simp only [State.ctrlReg, toNat_append_eq_add, BitVec.toNat_ofBool, BitVec.toNat_zero]
  omega

/-- R42: the fields of STATUS at bits 0, 4, 5, 6, 7, 8 and 11. -/
theorem statusReg_toNat :
    s.statusReg.toNat = s.st.code.toNat + 16 * s.run.toNat + 32 * s.doneO.toNat + 64 * s.errorO.toNat
      + 128 * s.warnHc.toNat + 256 * s.err.code.toNat + 2048 * s.csizeValid.toNat := by
  simp only [State.statusReg, toNat_append_eq_add, BitVec.toNat_ofBool, BitVec.toNat_zero]
  omega

/-- R40: `NREAD` zero-extended. -/
theorem nreadReg_toNat : (s.regValue 3).toNat = s.nread.toNat :=
  BitVec.toNat_setWidth_of_le (by decide)

/-- R40: `BD` above `FLG`. -/
theorem descriptorReg_toNat : (s.regValue 5).toNat = s.flg.toNat + 256 * s.bd.toNat := by
  simp only [State.regValue, toNat_append_eq_add, BitVec.toNat_zero]
  omega

/-- R40: the lower half of `CSIZE`. -/
theorem csizeLowReg_toNat : (s.regValue 6).toNat = s.csize.toNat % 2 ^ 32 := by
  simp [State.regValue, BitVec.extractLsb'_toNat]

/-- R40: the upper half of `CSIZE`; what is above it is nothing. -/
theorem csizeHighReg_toNat : (s.regValue 7).toNat = s.csize.toNat / 2 ^ 32 := by
  have h : s.csize.toNat < 2 ^ 64 := s.csize.isLt
  rw [State.regValue, BitVec.extractLsb'_toNat, Nat.shiftRight_eq_div_pow]
  omega

/-- R40, R140: `HC_CALC` above `HC_STORED`. -/
theorem checksumReg_toNat :
    (s.regValue 8).toNat = s.hcStored.toNat + 256 * (s.hash.toNat / 256 % 256) := by
  rw [← reportingByte_toNat]
  simp only [State.regValue, State.hcCalc, toNat_append_eq_add, BitVec.toNat_zero]
  omega

/-- R40, R151: `BLK_FLAG` at bit 31 above `BLK_SIZE`. -/
theorem blockReg_toNat : (s.regValue 10).toNat = s.blkSize.toNat + 2 ^ 31 * s.blkFlag.toNat := by
  rw [State.regValue, blockWord, toNat_append_eq_add, BitVec.toNat_ofBool, Nat.add_comm]

end

/-- Settles O31: RDREG returns `regValue n`, whose value the map above gives register by register. -/
theorem rdregReturnsTheRegister : Obligations.RdregReturnsTheRegister := by
  refine fun s n => ⟨s.regValue n, rfl, ?_⟩
  match n with
  | 0 => exact ctrlReg_toNat s
  | 1 => rfl
  | 2 => exact statusReg_toNat s
  | 3 => exact nreadReg_toNat s
  | 4 => rfl
  | 5 => exact descriptorReg_toNat s
  | 6 => exact csizeLowReg_toNat s
  | 7 => exact csizeHighReg_toNat s
  | 8 => exact checksumReg_toNat s
  | 9 => rfl
  | 10 => exact blockReg_toNat s
  | _ + 11 => rfl

end Sys2Proof
end

section
/-! Errors (60_exceptions.md): the length test before every read, what an error entry writes, and the outputs. -/

namespace Sys2Proof

open Machine Claims

/-! ### The outputs `done_o` and `error_o` -/

section

variable (s : State)

/-- R42: `STATUS.DONE` stands at bit 5. -/
theorem statusReg_bit5 : s.statusReg.getLsbD 5 = s.doneO := by
  simp only [State.statusReg, BitVec.getLsbD_append]
  simp

/-- R42: `STATUS.ERROR` stands at bit 6. -/
theorem statusReg_bit6 : s.statusReg.getLsbD 6 = s.errorO := by
  simp only [State.statusReg, BitVec.getLsbD_append]
  simp

/-- R211: `done_o` is a plain view of `ST`. -/
theorem doneO_iff : s.doneO = true ↔ s.st = .done := beq_iff_eq

/-- R211: `error_o` is a plain view of `ST`. -/
theorem errorO_iff : s.errorO = true ↔ s.st = .error := beq_iff_eq

end

/-- Settles O33: the two STATUS bits and the two views of `ST`. -/
theorem outputsMirrorStatus : Obligations.OutputsMirrorStatus :=
  fun s => ⟨(statusReg_bit5 s).symm, doneO_iff s, (statusReg_bit6 s).symm, errorO_iff s⟩

/-! ### The seven micro-operations together -/

/-- What holds of each of the seven micro-operations holds of every member of `uops`. -/
theorem uops_cases {motive : ∀ i, i ∈ uops → Prop} (chkmagic : motive .chkmagic (by decide))
    (rdflg : motive .rdflg (by decide)) (rdbd : motive .rdbd (by decide)) (brcsize : motive .brcsize (by decide))
    (rdhc : motive .rdhc (by decide)) (rdblk : motive .rdblk (by decide)) (finish : motive .finish (by decide))
    (i : Instr) (hi : i ∈ uops) : motive i hi := by
  have h := hi
  simp only [List.mem_cons, List.not_mem_nil, or_false] at h
  obtain rfl | rfl | rfl | rfl | rfl | rfl | rfl := h <;> assumption

section

variable {i : Instr} {s t : State}

/-- R56: BRCSIZE reads nothing without a content size, and `[6, 14)` with one. -/
theorem readEnd_brcsize : readEnd .brcsize s = if s.flgCSize then 14 else 0 := rfl

/-- R56: the stored checksum is the last byte RDHC reads. -/
theorem readEnd_rdhc : readEnd .rdhc s = hcOff s.flgCSize + 1 := (blkOff_eq s.flgCSize).symm

/-- R56: RDBLK reads up to the end of the header. -/
theorem readEnd_rdblk : readEnd .rdblk s = endOff s.flgCSize := (endOff_eq s.flgCSize).symm

/-- R202: below the end of its range a micro-operation raises TruncatedHeader, whatever the buffer holds. -/
theorem exec_uop_short (hi : i ∈ uops) (hl : s.len.toNat < readEnd i s) :
    exec i s = .next (raise .truncatedHeader s) := by
  cases i, hi using uops_cases with
  | chkmagic => exact execChkmagic_short hl
  | rdflg => exact execRdflg_short hl
  | rdbd => exact execRdbd_short hl
  | brcsize =>
    rw [readEnd_brcsize] at hl
    cases hc : s.flgCSize with
    | true => exact execBrcsize_short hc (by simpa [hc] using hl)
    | false => simp [hc] at hl
  | rdhc => exact execRdhc_short (readEnd_rdhc ▸ hl)
  | rdblk => exact execRdblk_short (readEnd_rdblk ▸ hl)
  | finish => exact absurd hl (Nat.not_lt_zero _)

/-- R200 to R206: what a micro-operation's next state is as to errors. The first three are error entries: a failed
length test, a wrong magic number, a fatal mismatch. -/
inductive UopOutcome (i : Instr) (s t : State) : Prop
  | truncated (hl : s.len.toNat < readEnd i s) (ht : t = raise .truncatedHeader s)
  | wrongMagic (hi : i = .chkmagic) (ht : t = raise .invalidMagic { s with magic := t.magic, nread := 4 })
  | mismatch (hi : i = .finish) (ht : t = raise .checksumMismatch { s with warnHc := true })
  | noError (herr : t.err = s.err) (hst : t.st ≠ .error)

/-- Every next state of a micro-operation is one of these, from the inversion lemma of each. -/
theorem exec_uop_outcome (hi : i ∈ uops) (h : exec i s = .next t) : UopOutcome i s t := by
  cases i, hi using uops_cases with
  | chkmagic =>
    obtain ⟨hl, ht⟩ | ⟨_, _, _, ⟨_, rfl⟩ | ⟨_, rfl⟩⟩ := execChkmagic_cases h
    · exact .truncated hl ht
    · exact .wrongMagic rfl rfl
    · exact .noError rfl nofun
  | rdflg =>
    obtain ⟨hl, ht⟩ | ⟨_, _, _, rfl⟩ := execRdflg_cases h
    · exact .truncated hl ht
    · exact .noError rfl nofun
  | rdbd =>
    obtain ⟨hl, ht⟩ | ⟨_, _, _, rfl⟩ := execRdbd_cases h
    · exact .truncated hl ht
    · exact .noError rfl nofun
  | brcsize =>
    obtain ⟨_, rfl⟩ | ⟨hc, hl, ht⟩ | ⟨_, _, _, _, rfl⟩ := execBrcsize_cases h
    · exact .noError rfl nofun
    · exact .truncated (by rwa [readEnd_brcsize, if_pos hc]) ht
    · exact .noError rfl nofun
  | rdhc =>
    obtain ⟨hl, ht⟩ | ⟨_, _, _, _, _, rfl⟩ := execRdhc_cases h
    · exact .truncated (readEnd_rdhc ▸ hl) ht
    · exact .noError rfl nofun
  | rdblk =>
    obtain ⟨hl, ht⟩ | ⟨_, _, _, rfl⟩ := execRdblk_cases h
    · exact .truncated (readEnd_rdblk ▸ hl) ht
    · exact .noError rfl nofun
  | finish =>
    obtain ⟨_, _, ht⟩ | ⟨_, rfl⟩ := execFinish_cases h
    · exact .mismatch rfl ht
    · exact .noError rfl nofun

end

/-- Settles O17: `exec_uop_short` below the end of the range; from there on, of the outcomes only the failed length
test writes TruncatedHeader. -/
theorem truncationTestPrecedesTheRead : Obligations.TruncationTestPrecedesTheRead := by
  refine fun i hi s => ⟨exec_uop_short hi, fun hl t h herr => ?_⟩
  cases exec_uop_outcome hi h with
  | truncated hshort _ => exact absurd hshort (Nat.not_lt.2 hl)
  | wrongMagic _ ht => rw [ht] at herr; cases herr
  | mismatch _ ht => rw [ht] at herr; cases herr
  | noError hkept _ => exact hkept ▸ herr

/-- Settles O18: the three error entries among the outcomes; each clears `RUN`, so R165's rest follows. -/
theorem errorEntryWritesOnlyItsElements : Obligations.ErrorEntryWritesOnlyItsElements := by
  intro i hi s t _ h hst
  have hrest (hrun : t.run = false) (hp : t.pending = []) : step t = .next t := (sequencerStepTable t hp).1 hrun
  cases exec_uop_outcome hi h with
  | truncated _ ht => exact ⟨.inl ht, hrest (congrArg State.run ht)⟩
  | wrongMagic huop ht => exact ⟨.inr (.inl ⟨huop, ht⟩), hrest (congrArg State.run ht)⟩
  | mismatch huop ht => exact ⟨.inr (.inr ⟨huop, ht⟩), hrest (congrArg State.run ht)⟩
  | noError _ hne => exact absurd hst hne

end Sys2Proof
end

section
/-! The reset input (70_reset_and_hazards.md): every element at the Reset column of R20, so every register reads 0. -/

namespace Sys2Proof

open Machine

/-- R230, R40: after reset each mapped register is made of cleared elements; above 10 a register reads 0 anyway
(R43). -/
theorem reset_regValue (n : Nat) : State.reset.regValue n = 0 := by
  match n with
  | 0 | 1 | 2 | 3 | 4 | 5 | 6 | 7 | 8 | 9 | 10 => decide
  | _ + 11 => rfl

/-- R40: a register reads elements of the block alone, and reset gives them the same values from every state. -/
@[simp] theorem resetBlock_regValue (s : State) (n : Nat) : (resetBlock s).regValue n = 0 :=
  calc (resetBlock s).regValue n = State.reset.regValue n := rfl
    _ = 0 := reset_regValue n

/-- Settles O32: RESET is `resetBlock`, whose field lemmas give the elements and the buffer, and
`resetBlock_regValue` the registers. -/
theorem resetInputClearsEveryElement : Obligations.ResetInputClearsEveryElement := by
  intro s
  have hreset : exec .reset s = .next (resetBlock s) := rfl
  exact ⟨resetBlock s, hreset, by simp⟩

end Sys2Proof
end

section
/-! The encoder undoes the decoder and the decoder the encoder (30_encoding.md): fields and bytes of a header first. -/

namespace Sys2Proof

/-! ### The two descriptor bytes and the data-block field -/

/-- R75: the fields of the FLG byte built from `f` are `f`, whichever format it announces. -/
@[simp] theorem flgFields_flgByte (f : FlgFields) (cs : Bool) : flgFields (flgByte f cs) = f := by
  obtain ⟨v, i, k, c, r, d⟩ := f
  revert v i k c r d cs
  decide

/-- R75: bit 3 of the FLG byte built from `f` is the format it was built for. -/
@[simp] theorem contentSizeBit_flgByte (f : FlgFields) (cs : Bool) : contentSizeBit (flgByte f cs) = cs := by
  obtain ⟨v, i, k, c, r, d⟩ := f
  revert v i k c r d cs
  decide

/-- R75: the seven other bits and bit 3 are the whole FLG byte. -/
theorem flgByte_flgFields (b : Byte) : flgByte (flgFields b) (contentSizeBit b) = b := by
  revert b
  decide

/-- R76: the parts of the BD byte built from `f` are `f`. -/
@[simp] theorem bdFields_bdByte (f : BdFields) : bdFields (bdByte f) = f := by
  obtain ⟨x, m, l⟩ := f
  revert x m l
  decide

/-- R76: the three parts are the whole BD byte. -/
@[simp] theorem bdByte_bdFields (b : Byte) : bdByte (bdFields b) = b := by
  revert b
  decide

/-- R79: the flag and the size are the whole data-block field. -/
@[simp] theorem blockWord_blockFlagOf_blockSizeOf (w : Word) : blockWord (blockFlagOf w) (blockSizeOf w) = w := by
  have hflag : (blockFlagOf w).toNat = w.toNat / 2 ^ 31 % 2 := by
    rw [blockFlagOf, BitVec.getLsbD, Nat.toNat_testBit]
  have hsize : (blockSizeOf w).toNat = w.toNat % 2 ^ 31 := by
    rw [blockSizeOf, BitVec.extractLsb'_toNat, Nat.shiftRight_zero]
  have hw : w.toNat < 2 ^ 32 := w.isLt
  apply BitVec.eq_of_toNat_eq
  rw [blockWord, toNat_append_eq_add, BitVec.toNat_ofBool, hflag, hsize]
  omega

/-! ### Little-endian values of four and eight bytes -/

/-- R52: 32 bits read back from their little-endian encoding, as a word. -/
theorem leWord_leBytes_toNat (w : Word) : leWord (leBytes 4 w.toNat) = w := by
  rw [leWord_leBytes, BitVec.ofNat_toNat, BitVec.setWidth_eq]

/-- R52: 64 bits read back from their little-endian encoding. -/
theorem leDword_leBytes (v : BitVec 64) : leDword (leBytes 8 v.toNat) = v := by
  apply BitVec.eq_of_toNat_eq
  rw [leDword, leNat_leBytes, BitVec.toNat_ofNat]
  omega

/-- R52: the encoding of the word read from four bytes is those bytes. -/
theorem leBytes_leWord {bs : List Byte} (h : bs.length = 4) : leBytes 4 (leWord bs).toNat = bs := by
  have hlt : leNat bs < 2 ^ 32 := (leNat_lt bs).trans_eq (by rw [h]; norm_num)
  rw [leWord, BitVec.toNat_ofNat, Nat.mod_eq_of_lt hlt, ← h, leBytes_leNat]

/-- R52: the encoding of the value read from eight bytes is those bytes. -/
theorem leBytes_leDword {bs : List Byte} (h : bs.length = 8) : leBytes 8 (leDword bs).toNat = bs := by
  have hlt : leNat bs < 2 ^ 64 := (leNat_lt bs).trans_eq (by rw [h]; norm_num)
  rw [leDword, BitVec.toNat_ofNat, Nat.mod_eq_of_lt hlt, ← h, leBytes_leNat]

/-! ### Encoding, then decoding -/

/-- R72: five bytes after BD, the last four the encoding of `w`, are read as checksum, flag and size. -/
theorem decodeTailS_leBytes (flg bd h : Byte) (w : Word) :
    decodeTailS flg bd (h :: leBytes 4 w.toNat) =
      .ok (.frameS ⟨flgFields flg, bdFields bd, h, blockFlagOf w, blockSizeOf w⟩) := by
  conv_rhs => rw [← leWord_leBytes_toNat w]
  rfl

/-- R73: thirteen bytes after BD, eight of them the encoding of `c`, the last four that of `w`. -/
theorem decodeTailL_leBytes (flg bd h : Byte) (c : BitVec 64) (w : Word) :
    decodeTailL flg bd (leBytes 8 c.toNat ++ [h] ++ leBytes 4 w.toNat) =
      .ok (.frameL ⟨flgFields flg, bdFields bd, h, blockFlagOf w, blockSizeOf w⟩ c) := by
  conv_rhs => rw [← leWord_leBytes_toNat w, ← leDword_leBytes c]
  rfl

/-- R70: past the encoded magic number and FLG, bit 3 alone says how the rest is read. -/
theorem decodeFrame_magic (flg bd : Byte) (tail : List Byte) :
    decodeFrame (leBytes 4 Config.magicConst.toNat ++ flg :: bd :: tail) =
      if contentSizeBit flg then decodeTailL flg bd tail else decodeTailS flg bd tail :=
  if_pos (e := .error .invalidMagic) (leWord_leBytes Config.magicConst.toNat)

theorem decodeFrame_frameSBytes (f : FrameFields) : decodeFrame (frameSBytes f) = .ok (.frameS f) := by
  have hbytes : frameSBytes f = leBytes 4 Config.magicConst.toNat ++ flgByte f.flags false :: bdByte f.bd ::
      (f.headerChecksum :: leBytes 4 (blockWord f.blockFlag f.blockSize).toNat) := rfl
  rw [hbytes, decodeFrame_magic, contentSizeBit_flgByte, decodeTailS_leBytes]
  simp

theorem decodeFrame_frameLBytes (f : FrameFields) (c : BitVec 64) :
    decodeFrame (frameLBytes f c) = .ok (.frameL f c) := by
  have hbytes : frameLBytes f c = leBytes 4 Config.magicConst.toNat ++ flgByte f.flags true :: bdByte f.bd ::
      (leBytes 8 c.toNat ++ [f.headerChecksum] ++ leBytes 4 (blockWord f.blockFlag f.blockSize).toNat) := rfl
  rw [hbytes, decodeFrame_magic, contentSizeBit_flgByte, decodeTailL_leBytes]
  simp

/-- R85: a register write that is not START's own is read as written. -/
theorem decodeWrite_of_wellFormed {n : Nat} {v : Word} (h : WellFormed (.wrreg n v)) :
    decodeWrite n v = .wrreg n v := by
  have hne : (n == 0 && v.getLsbD 0) = false := by
    rwa [WellFormed, Instr.wellFormed, Bool.not_eq_true'] at h
  rw [decodeWrite, hne]
  rfl

/-- R236: the data that START is written with carries its operand in bit 1. -/
theorem decodeWrite_startWord (strict : Bool) : decodeWrite 0 (startWord strict) = .start strict := by
  cases strict <;> rfl

/-- Settles O1: state codes and the operands of the host's operations directly, the two header formats by
`decodeFrame_frameSBytes` and `decodeFrame_frameLBytes`. -/
theorem decodeEncodeRoundTrip : Obligations.DecodeEncodeRoundTrip := by
  intro i hi
  cases i with
  | start strict => exact congrArg Except.ok (decodeWrite_startWord strict)
  | wrreg n v => exact congrArg Except.ok (decodeWrite_of_wellFormed hi)
  | frameS f => exact decodeFrame_frameSBytes f
  | frameL f c => exact decodeFrame_frameLBytes f c
  | chkmagic | rdflg | rdbd | brcsize | rdhc | rdblk | finish | rdreg | reset => rfl

/-! ### Decoding, then encoding -/

/-- R72: what decodes as the end of a format S header is five bytes, and they are told by the fields. -/
theorem frameSBytes_of_decodeTailS {flg bd : Byte} {tail : List Byte} {i : Instr}
    (h : decodeTailS flg bd tail = .ok i) (hcs : contentSizeBit flg = false) :
    ∃ f, i = .frameS f ∧ leBytes 4 Config.magicConst.toNat ++ flg :: bd :: tail = frameSBytes f := by
  unfold decodeTailS at h
  split at h
  · injection h with h
    refine ⟨_, h.symm, ?_⟩
    rw [frameSBytes, blockWord_blockFlagOf_blockSizeOf, leBytes_leWord rfl, ← hcs, flgByte_flgFields, bdByte_bdFields]
    rfl
  · cases h

/-- R73: what decodes as the end of a format L header is thirteen bytes, and they are told by the fields. -/
theorem frameLBytes_of_decodeTailL {flg bd : Byte} {tail : List Byte} {i : Instr}
    (h : decodeTailL flg bd tail = .ok i) (hcs : contentSizeBit flg = true) :
    ∃ f c, i = .frameL f c ∧ leBytes 4 Config.magicConst.toNat ++ flg :: bd :: tail = frameLBytes f c := by
  unfold decodeTailL at h
  split at h
  · injection h with h
    refine ⟨_, _, h.symm, ?_⟩
    rw [frameLBytes, blockWord_blockFlagOf_blockSizeOf, leBytes_leWord rfl, leBytes_leDword rfl, ← hcs,
      flgByte_flgFields, bdByte_bdFields]
    rfl
  · cases h

/-- R70: a byte string that decodes begins with the magic number's encoding, FLG and BD. -/
theorem decodeFrame_ok_cases {bs : List Byte} {i : Instr} (h : decodeFrame bs = .ok i) :
    ∃ flg bd tail, bs = leBytes 4 Config.magicConst.toNat ++ flg :: bd :: tail := by
  unfold decodeFrame at h
  split at h
  · rename_i m0 m1 m2 m3 rest
    split at h
    · rename_i hm
      split at h
      · exact ⟨_, _, _, by rw [← hm, leBytes_leWord rfl]; rfl⟩
      · cases h
    · cases h
  · cases h

/-- R71, R80: exactly the encodings of the two formats decode. -/
theorem decodeFrame_ok_encodes {bs : List Byte} {i : Instr} (h : decodeFrame bs = .ok i) :
    (∃ f, i = .frameS f ∧ bs = frameSBytes f) ∨ ∃ f c, i = .frameL f c ∧ bs = frameLBytes f c := by
  obtain ⟨flg, bd, tail, rfl⟩ := decodeFrame_ok_cases h
  rw [decodeFrame_magic] at h
  cases hcs : contentSizeBit flg with
  | false => exact .inl (frameSBytes_of_decodeTailS (by simpa [hcs] using h) hcs)
  | true => exact .inr (frameLBytes_of_decodeTailL (by simpa [hcs] using h) hcs)

/-- Settles O2: `decodeFrame_ok_encodes` in the two formats, whose every term is well formed. -/
theorem frameBytesHaveOneReading : Obligations.FrameBytesHaveOneReading := by
  intro bs i h
  obtain ⟨f, rfl, rfl⟩ | ⟨f, c, rfl, rfl⟩ := decodeFrame_ok_encodes h
  · exact ⟨rfl, rfl⟩
  · exact ⟨rfl, rfl⟩

/-- Settles O5: the words of R84, R85 and V1 by evaluation of the decoder. -/
theorem wordsFromTheEncodingTables : Obligations.WordsFromTheEncodingTables :=
  ⟨rfl, rfl, rfl, rfl, rfl⟩

end Sys2Proof
end

section
/-! The step (45_finish_and_sequencing.md R165, 70_reset_and_hazards.md R241): which code it runs, and everything it
can do. -/

namespace Sys2Proof

open Machine Safety Claims

variable {s t : State}

/-! ### The code fetched, and what runs it -/

theorem step_of_fetch {c : Code} {i : Instr} (hf : fetch s = some c) (hd : decode c = .ok i) :
    step s = exec i (popMove s) := by
  rw [step, hf]
  simp only [hd]

/-- R165: the parser's code is `ST`'s while `RUN = 1`, and there is none at rest. -/
theorem fetch_parser (hp : s.pending = [] ∨ ∃ r, s.pending = .parserTurn :: r) :
    fetch s = if s.run then some (.uop s.st.code) else none := by
  obtain hp | ⟨r, hp⟩ := hp
  · rw [fetch, hp]; rfl
  · rw [fetch, hp]; rfl

/-- Settles O7: `step_of_fetch`; the parser's turns by `fetch_parser`, every other move is fetched as itself. -/
theorem stepRunsDecodedInstruction : Obligations.StepRunsDecodedInstruction := by
  refine ⟨fun s c i => step_of_fetch, fun s hr hp => ?_, fun s hr hp => ?_, fun s n v r hp => ?_, fun s n r hp => ?_,
    fun s r hp => ?_, fun s bs r hp => ?_⟩
  · rw [fetch_parser hp, hr]; rfl
  · rw [fetch_parser hp, hr]; rfl
  · rw [fetch, hp]
  · rw [fetch, hp]
  · rw [fetch, hp]
  · rw [fetch, hp]

/-! ### Placing a table row's bits (log 9) -/

/-- R84: a code that selects a micro-operation is the code of the state placed for it. -/
theorem code_seqStateOf {c : BitVec 4} (h : c.toNat < 7) : (seqStateOf c).code = c := by
  revert c
  decide

/-- A code that decodes is the next one fetched once it is placed. -/
theorem fetch_placeCode {c : Code} {i : Instr} (h : decode c = .ok i) : fetch (placeCode c s) = some c := by
  cases c with
  | uop c =>
    have hc : c.toNat < 7 := by
      by_contra hc
      rw [decode_uop_of_seven_le (Nat.le_of_not_lt hc)] at h
      cases h
    show some (Code.uop (seqStateOf c).code) = _
    rw [code_seqStateOf hc]
  | write n v => rfl
  | read n => rfl
  | reset => rfl
  | frame bs => rfl

/-- Placing a code puts one move before those of `s`. -/
theorem pending_popMove_placeCode (c : Code) (s : State) : (popMove (placeCode c s)).pending = s.pending := by
  cases c <;> rfl

/-- Settles O6: the bits name a code, `fetch_placeCode` says that it is fetched next. -/
theorem placedTableWordRunsNext : Obligations.PlacedTableWordRunsNext := by
  intro s nbits w i h
  unfold decodeTableWord at h
  unfold State.withFetchWord placeTableWord
  cases hc : tableCode nbits w with
  | none => simp [hc] at h
  | some c =>
    simp only [hc] at h ⊢
    have hd : decode c = .ok i := by
      cases hdec : decode c with
      | error e => simp [hdec, Except.toOption] at h
      | ok j => simpa [hdec, Except.toOption] using h
    exact ⟨step_of_fetch (fetch_placeCode hd) hd, pending_popMove_placeCode c s⟩

/-! ### Everything a step can do -/

/-- A header instruction is the run of its own bytes (log 7). -/
theorem exec_of_decodeFrame {bs : List Byte} {i : Instr} (h : decodeFrame bs = .ok i) (s : State) :
    exec i s = parseRun bs s.strict s := by
  obtain ⟨f, rfl, rfl⟩ | ⟨f, c, rfl, rfl⟩ := decodeFrame_ok_encodes h
  · rfl
  · rfl

/-- A header move runs its bytes, whether they are a header or not (log 7). -/
theorem step_header {bs : List Byte} {r : List Move} (h : s.pending = .header bs :: r) :
    step s = parseRun bs s.strict (popMove s) := by
  have hf : fetch s = some (.frame bs) := by rw [fetch, h]
  cases hd : decodeFrame bs with
  | ok i => exact (step_of_fetch hf hd).trans (exec_of_decodeFrame hd _)
  | error e =>
    have hd : decode (.frame bs) = .error e := hd
    rw [step, hf]
    simp only [hd]
    rfl

/-- What the step from `s` to `t` was. In `quiet` nothing of the block and its buffer moved. -/
inductive StepCase (s t : State) : Prop
  | quiet (ht : t = { s with pending := t.pending, replies := t.replies })
  | parser (hr : s.run = true) (h : parserStep (popMove s) = .next t)
  | start (v : Word) (r : List Move) (hp : s.pending = .write 0 v :: r) (hv : v.getLsbD 0 = true) (hr : s.run = false)
      (ht : t = beginRun (v.getLsbD 1) (popMove s))
  | strict (b : Bool) (hr : s.run = false) (ht : t = { popMove s with strict := b })
  | len (v : Word) (hr : s.run = false) (ht : t = { popMove s with len := v })
  | reset (r : List Move) (hp : s.pending = .reset :: r) (ht : t = resetBlock (popMove s))
  | fill (a : Nat) (bs : List Byte) (r : List Move) (hp : s.pending = .fill a bs :: r)
      (ht : t = { popMove s with buf := writeBytes s.buf a bs })
      (hw : s.run = true → windowChanged s.buf t.buf = false)
  | header (bs : List Byte) (r : List Move) (hp : s.pending = .header bs :: r)
      (h : parseRun bs s.strict (popMove s) = .next t)

theorem stepCase_of_parserMove (h : parserMove (popMove s) = .next t) : StepCase s t := by
  rw [parserMove, popMove_run] at h
  cases hr : s.run with
  | true => exact .parser hr (by simpa [hr] using h)
  | false =>
    simp only [hr, Bool.false_eq_true, if_false] at h
    injection h with h
    exact .quiet (h ▸ rfl)

/-- R183: what a register write does, by `RUN`, the register number and START's bit. -/
theorem stepCase_of_write {n : Nat} {v : Word} {r : List Move} (hp : s.pending = .write n v :: r)
    (h : exec (decodeWrite n v) (popMove s) = .next t) : StepCase s t := by
  cases hr : s.run with
  | true =>
    rw [exec_decodeWrite_running (s := popMove s) hr] at h
    injection h with h
    exact .quiet (h ▸ rfl)
  | false =>
    have hr' : (popMove s).run = false := hr
    match n with
    | 0 =>
      cases hv : v.getLsbD 0 with
      | true =>
        rw [decodeWrite_zero_of_bit0 hv] at h
        have h := (execStart_rest hr' _).symm.trans h
        injection h with h
        exact .start v r hp hv hr h.symm
      | false =>
        have hd : decodeWrite 0 v = .wrreg 0 v := by rw [decodeWrite, hv]; rfl
        rw [hd] at h
        have h := (execWrreg_ctrl hr' v).symm.trans h
        rw [writeCtrl_of_not_bit0 hv] at h
        injection h with h
        exact .strict (v.getLsbD 1) hr h.symm
    | 1 =>
      have h := (execWrreg_len hr' v).symm.trans h
      injection h with h
      exact .len v hr h.symm
    | n + 2 =>
      have h := (execWrreg_of_two_le (Nat.le_add_left 2 n) v).symm.trans h
      injection h with h
      exact .quiet (h ▸ rfl)

/-- R241: every step is one of these, move by move. -/
theorem step_cases (h : step s = .next t) : StepCase s t := by
  match hp : s.pending with
  | [] =>
    have hpop : popMove s = s := by rw [popMove, hp]; exact congrArg (fun p => { s with pending := p }) hp.symm
    exact stepCase_of_parserMove (hpop.symm ▸ (step_nil hp).symm.trans h)
  | .parserTurn :: r => exact stepCase_of_parserMove ((step_turn hp).symm.trans h)
  | .write n v :: r => exact stepCase_of_write hp ((step_write hp).symm.trans h)
  | .read n :: r =>
    rw [step_read hp] at h
    injection h with h
    exact .quiet (h ▸ rfl)
  | .reset :: r =>
    rw [step_reset hp] at h
    injection h with h
    exact .reset r hp h.symm
  | .fill a bs :: r =>
    obtain ⟨ht, hw⟩ := fillBuffer_next ((step_fill hp).symm.trans h)
    exact .fill a bs r hp ht hw
  | .header bs :: r => exact .header bs r hp ((step_header hp).symm.trans h)
  | .pollStatus :: r =>
    obtain ⟨ms, hm⟩ := pollAgain_eq (popMove s)
    rw [step_poll hp, hm] at h
    injection h with h
    exact .quiet (h ▸ rfl)
  | .parse bs strict :: r =>
    rw [step_parse hp] at h
    injection h with h
    exact .quiet (h ▸ rfl)

end Sys2Proof
end

section
/-! The invariants of the block (10_state.md R22 to R29, 70_reset_and_hazards.md R232), kept by every step. -/

namespace Sys2Proof

open Machine Safety

variable {s t : State}

/-! ### What the invariants say of a running state -/

theorem Safety.BlockInv.err_eq_none (hs : BlockInv s) (hst : s.st ≠ .error) : s.err = .none :=
  Classical.not_not.1 (mt hs.errState.1 hst)

theorem Safety.BlockInv.warnHc_eq_false (hs : BlockInv s) (hlive : terminal s.st = false) : s.warnHc = false := by
  by_contra hw
  obtain hst | ⟨hst, _⟩ := hs.warnState (by simpa using hw)
  · rw [hst] at hlive; cases hlive
  · rw [hst] at hlive; cases hlive

/-- What the invariants ask of a running state. -/
theorem blockInv_of_live (hlive : terminal t.st = false) (hrun : t.run = true) (herr : t.err = .none)
    (hwarn : t.warnHc = false) (habsent : t.csizeValid = false → t.csize = 0)
    (hflag : 4 ≤ completed t.st → t.csizeValid = t.flgCSize) (hnotYet : completed t.st < 4 → t.csizeValid = false)
    (hnread : t.nread.toNat = bytesConsumed t.flgCSize t.st)
    (hmagic : 1 ≤ completed t.st → t.magic = Config.magicConst) (hwf : Memory.wf t.buf) : BlockInv t where
  runLive _ := hlive
  idle hr := by rw [hrun] at hr; cases hr
  errState := ⟨fun he => absurd herr he, fun hst => by rw [hst] at hlive; cases hlive⟩
  warnState hw := by rw [hwarn] at hw; cases hw
  mismatchWarns he := by rw [herr] at he; cases he
  warnMeans hst := by rw [hst] at hlive; cases hlive
  csizeAbsent := habsent
  csizeFlag := hflag
  csizeNotYet _ := hnotYet
  csizeNotOnMagic he := by rw [herr] at he; cases he
  nreadState _ := hnread
  magicState := hmagic
  bufWf := hwf

/-- R206: what the invariants ask of a state in which an error is raised. -/
theorem blockInv_raise {e : ErrCode} (he : e ≠ .none) (hwarn : s.warnHc = true ↔ e = .checksumMismatch)
    (habsent : s.csizeValid = false → s.csize = 0) (hmagic : e = .invalidMagic → s.csizeValid = false)
    (hwf : Memory.wf s.buf) : BlockInv (raise e s) where
  runLive := nofun
  idle _ := nofun
  errState := iff_of_true he rfl
  warnState hw := .inr ⟨rfl, hwarn.1 hw⟩
  mismatchWarns := hwarn.2
  warnMeans := nofun
  csizeAbsent := habsent
  csizeFlag := nofun
  csizeNotYet h := absurd rfl h
  csizeNotOnMagic := hmagic
  nreadState h := absurd rfl h
  magicState := nofun
  bufWf := hwf

/-- R202: TruncatedHeader raised in a running state. -/
theorem blockInv_truncated (hs : BlockInv s) (hlive : terminal s.st = false) :
    BlockInv (raise .truncatedHeader s) :=
  blockInv_raise nofun (by simp [hs.warnHc_eq_false hlive]) hs.csizeAbsent nofun hs.bufWf

/-! ### The parser's steps -/

theorem execChkmagic_keeps_inv (hs : BlockInv s) (hr : s.run = true) (hst : s.st = .start)
    (h : execChkmagic s = .next t) : BlockInv t := by
  have hlive : terminal s.st = false := hs.runLive hr
  have hvalid : s.csizeValid = false := hs.csizeNotYet (by simp [hst]) (by simp [hst, completed])
  obtain ⟨_, rfl⟩ | ⟨_, bs, _, ⟨_, rfl⟩ | ⟨hm, rfl⟩⟩ := execChkmagic_cases h
  · exact blockInv_truncated hs hlive
  · exact blockInv_raise nofun (by simp [hs.warnHc_eq_false hlive]) hs.csizeAbsent (fun _ => hvalid) hs.bufWf
  · exact blockInv_of_live rfl hr (hs.err_eq_none (by simp [hst])) (hs.warnHc_eq_false hlive) hs.csizeAbsent nofun
      (fun _ => hvalid) rfl (fun _ => hm) hs.bufWf

theorem execRdflg_keeps_inv (hs : BlockInv s) (hr : s.run = true) (hst : s.st = .magicRead)
    (h : execRdflg s = .next t) : BlockInv t := by
  have hlive : terminal s.st = false := hs.runLive hr
  obtain ⟨_, rfl⟩ | ⟨_, b, _, rfl⟩ := execRdflg_cases h
  · exact blockInv_truncated hs hlive
  · exact blockInv_of_live rfl hr (hs.err_eq_none (by simp [hst])) (hs.warnHc_eq_false hlive) hs.csizeAbsent nofun
      (fun _ => hs.csizeNotYet (by simp [hst]) (by simp [hst, completed])) rfl
      (fun _ => hs.magicState (by simp [hst, completed])) hs.bufWf

theorem execRdbd_keeps_inv (hs : BlockInv s) (hr : s.run = true) (hst : s.st = .flagsRead)
    (h : execRdbd s = .next t) : BlockInv t := by
  have hlive : terminal s.st = false := hs.runLive hr
  obtain ⟨_, rfl⟩ | ⟨_, b, _, rfl⟩ := execRdbd_cases h
  · exact blockInv_truncated hs hlive
  · exact blockInv_of_live rfl hr (hs.err_eq_none (by simp [hst])) (hs.warnHc_eq_false hlive) hs.csizeAbsent nofun
      (fun _ => hs.csizeNotYet (by simp [hst]) (by simp [hst, completed])) rfl
      (fun _ => hs.magicState (by simp [hst, completed])) hs.bufWf

/-- R120: without a content size `NREAD` stays at 6, which is `hc_off`; with one it is 14. -/
theorem execBrcsize_keeps_inv (hs : BlockInv s) (hr : s.run = true) (hst : s.st = .blockDescRead)
    (h : execBrcsize s = .next t) : BlockInv t := by
  have hlive : terminal s.st = false := hs.runLive hr
  have herr : s.err = .none := hs.err_eq_none (by simp [hst])
  have hmagic : s.magic = Config.magicConst := hs.magicState (by simp [hst, completed])
  have hvalid : s.csizeValid = false := hs.csizeNotYet (by simp [hst]) (by simp [hst, completed])
  obtain ⟨hc, rfl⟩ | ⟨_, _, rfl⟩ | ⟨hc, _, bs, _, rfl⟩ := execBrcsize_cases h
  · have hnread : s.nread.toNat = hcOff s.flgCSize := by
      rw [hs.nreadState (by simp [hst]), hst, hc]
      rfl
    exact blockInv_of_live rfl hr herr (hs.warnHc_eq_false hlive) hs.csizeAbsent (fun _ => hvalid.trans hc.symm)
      (fun _ => hvalid) hnread (fun _ => hmagic) hs.bufWf
  · exact blockInv_truncated hs hlive
  · have hnread : 14 = hcOff s.flgCSize := by rw [hc]; rfl
    exact blockInv_of_live rfl hr herr (hs.warnHc_eq_false hlive) nofun (fun _ => hc.symm) (by simp [completed]) hnread
      (fun _ => hmagic) hs.bufWf

/-- The offsets `NREAD` receives from RDHC and RDBLK fit its five bits. -/
theorem toNat_ofNat_offset {n : Nat} (h : n ≤ windowLen) : (BitVec.ofNat 5 n).toNat = n :=
  Nat.mod_eq_of_lt (h.trans_lt (by decide))

theorem execRdhc_keeps_inv (hs : BlockInv s) (hr : s.run = true) (hst : s.st = .contentSizeBranch)
    (h : execRdhc s = .next t) : BlockInv t := by
  have hlive : terminal s.st = false := hs.runLive hr
  obtain ⟨_, rfl⟩ | ⟨_, b, p, _, _, rfl⟩ := execRdhc_cases h
  · exact blockInv_truncated hs hlive
  · exact blockInv_of_live rfl hr (hs.err_eq_none (by simp [hst])) (hs.warnHc_eq_false hlive) hs.csizeAbsent
      (fun _ => hs.csizeFlag (by simp [hst, completed])) (by simp [completed])
      (toNat_ofNat_offset (by cases s.flgCSize <;> decide)) (fun _ => hs.magicState (by simp [hst, completed])) hs.bufWf

theorem execRdblk_keeps_inv (hs : BlockInv s) (hr : s.run = true) (hst : s.st = .checksumRead)
    (h : execRdblk s = .next t) : BlockInv t := by
  have hlive : terminal s.st = false := hs.runLive hr
  obtain ⟨_, rfl⟩ | ⟨_, bs, _, rfl⟩ := execRdblk_cases h
  · exact blockInv_truncated hs hlive
  · exact blockInv_of_live rfl hr (hs.err_eq_none (by simp [hst])) (hs.warnHc_eq_false hlive) hs.csizeAbsent
      (fun _ => hs.csizeFlag (by simp [hst, completed])) (by simp [completed])
      (toNat_ofNat_offset (by cases s.flgCSize <;> decide)) (fun _ => hs.magicState (by simp [hst, completed])) hs.bufWf

/-- R160: `Done` takes over the report of `DataBlockRead`, and `WARN_HC` is the comparison R26 asks for. -/
theorem execFinish_keeps_inv (hs : BlockInv s) (hst : s.st = .dataBlockRead) (h : execFinish s = .next t) :
    BlockInv t := by
  have herr : s.err = .none := hs.err_eq_none (by simp [hst])
  obtain ⟨_, _, rfl⟩ | ⟨_, rfl⟩ := execFinish_cases h
  · exact blockInv_raise nofun (iff_of_true rfl rfl) hs.csizeAbsent nofun hs.bufWf
  · exact {
      runLive := nofun
      idle := fun _ => nofun
      errState := iff_of_false (not_not_intro herr) nofun
      warnState := fun _ => .inl rfl
      mismatchWarns := fun he => by cases herr.symm.trans he
      warnMeans := fun _ => rfl
      csizeAbsent := hs.csizeAbsent
      csizeFlag := fun _ => hs.csizeFlag (by simp [hst, completed])
      csizeNotYet := fun _ hlt => by simp [completed] at hlt
      csizeNotOnMagic := hs.csizeNotOnMagic
      nreadState := fun _ => (hs.nreadState (by simp [hst])).trans (by rw [hst]; rfl)
      magicState := fun _ => hs.magicState (by simp [hst, completed])
      bufWf := hs.bufWf }

theorem parserStep_keeps_inv (hs : BlockInv s) (hr : s.run = true) (h : parserStep s = .next t) : BlockInv t := by
  unfold parserStep at h
  cases hst : s.st <;> simp only [hst] at h
  case start => exact execChkmagic_keeps_inv hs hr hst h
  case magicRead => exact execRdflg_keeps_inv hs hr hst h
  case flagsRead => exact execRdbd_keeps_inv hs hr hst h
  case blockDescRead => exact execBrcsize_keeps_inv hs hr hst h
  case contentSizeBranch => exact execRdhc_keeps_inv hs hr hst h
  case checksumRead => exact execRdblk_keeps_inv hs hr hst h
  case dataBlockRead => exact execFinish_keeps_inv hs hst h
  case done => cases h
  case error => cases h

/-! ### The host's moves -/

/-- The invariants speak of neither `LEN`, `STRICT` nor the host's side, and of the buffer's form alone. -/
theorem Safety.BlockInv.with_inputs (hs : BlockInv s) {m : List Host.Cell} (hm : Memory.wf m) (strict : Bool)
    (len : Word) (p : List Move) (q : List Word) :
    BlockInv { s with strict := strict, len := len, buf := m, pending := p, replies := q } :=
  { hs with bufWf := hm }

theorem blockInv_beginRun (strict : Bool) (hm : Memory.wf s.buf) : BlockInv (beginRun strict s) :=
  blockInv_of_live rfl rfl rfl rfl (fun _ => rfl) nofun (fun _ => rfl) rfl nofun hm

theorem blockInv_reset : BlockInv State.reset where
  runLive := nofun
  idle _ _ := rfl
  errState := iff_of_false (not_not_intro rfl) nofun
  warnState := nofun
  mismatchWarns := nofun
  warnMeans := nofun
  csizeAbsent _ := rfl
  csizeFlag := nofun
  csizeNotYet _ _ := rfl
  csizeNotOnMagic _ := rfl
  nreadState _ := rfl
  magicState := nofun
  bufWf := reset_buf_wf

/-- A whole run, the one it waits for first included, keeps the invariants. -/
theorem parseRun_keeps_inv (hs : BlockInv s) {bs : List Byte} {strict : Bool} (h : parseRun bs strict s = .next t) :
    BlockInv t := by
  unfold parseRun at h
  split at h
  · rename_i u hu
    have hinv : BlockInv u := runParser_keeps (fun _ _ => parserStep_keeps_inv) _ _ _ hs hu
    exact runParser_keeps (fun _ _ => parserStep_keeps_inv) _ _ _
      (blockInv_beginRun strict (writeBytes_wf hinv.bufWf 0 bs)) h
  · cases h
  · cases h

/-- Settles O42: each case of a step, the parser's by `parserStep_keeps_inv`. -/
theorem everyStepKeepsInv : Obligations.EveryStepKeepsInv := by
  intro s t hs hstep
  have hpop : BlockInv (popMove s) := hs.with_inputs hs.bufWf s.strict s.len s.pending.tail s.replies
  cases step_cases hstep with
  | quiet ht => exact ht ▸ hs.with_inputs hs.bufWf s.strict s.len t.pending t.replies
  | parser hr h => exact parserStep_keeps_inv hpop hr h
  | start v r hp hv hr ht => exact ht ▸ blockInv_beginRun _ hs.bufWf
  | strict b hr ht => exact ht ▸ hpop.with_inputs hs.bufWf b s.len s.pending.tail s.replies
  | len v hr ht => exact ht ▸ hpop.with_inputs hs.bufWf s.strict v s.pending.tail s.replies
  | reset r hp ht => exact ht ▸ blockInv_reset.with_inputs hs.bufWf false 0 s.pending.tail s.replies
  | fill a bs r hp ht hw =>
    exact ht ▸ hpop.with_inputs (writeBytes_wf hs.bufWf a bs) s.strict s.len s.pending.tail s.replies
  | header bs r hp h => exact parseRun_keeps_inv hpop h

end Sys2Proof
end

section
/-! During a run the report is what the buffer says (20_memory.md R57, R60; 10_state.md R29 to R35), kept by every
step. -/

namespace Sys2Proof

open Machine Safety Claims

variable {s t : State}

/-! ### States of which nothing is asked -/

/-- Coherence speaks of a run in progress only. -/
theorem coherent_of_rest (hr : t.run = false) : Coherent t := by
  have hno {p : Prop} (h : t.run = true) : p := by rw [hr] at h; cases h
  exact ⟨hno, hno, hno, hno, hno, hno, hno, hno, hno, hno, hno, hno, hno⟩

/-- R180: at `Start` nothing has been read and every element is 0. -/
theorem coherent_beginRun (strict : Bool) (s : State) : Coherent (beginRun strict s) where
  magic _ := nofun
  flg _ := nofun
  bd _ := nofun
  csize _ := nofun
  stored _ := nofun
  hash _ := nofun
  blk _ := nofun
  ahead2 _ _ := rfl
  ahead3 _ _ := rfl
  ahead4 _ _ := ⟨rfl, rfl⟩
  ahead5 _ _ := ⟨rfl, rfl⟩
  ahead6 _ _ := ⟨rfl, rfl⟩
  lenRead _ := Nat.zero_le _

/-- R50: coherence looks at the bytes the parser may address, and at nothing of the host's side. -/
theorem Safety.Coherent.with_window (hs : Coherent s) {m : List Host.Cell}
    (hm : s.run = true → ∀ a, a < windowLen → readByte m a = readByte s.buf a) (p : List Move) (q : List Word) :
    Coherent { s with buf := m, pending := p, replies := q } := by
  have hbytes (hr : s.run = true) {a n : Nat} (h : a + n ≤ windowLen) : readBytes m a n = readBytes s.buf a n :=
    readBytes_congr fun b _ hb => hm hr b (hb.trans_le h)
  refine { hs with
    magic := fun hr hc => ?_, flg := fun hr hc => ?_, bd := fun hr hc => ?_, csize := fun hr hc hcs => ?_,
    stored := fun hr hc => ?_, blk := fun hr hc => ?_ }
  · rw [hbytes hr (by decide)]; exact hs.magic hr hc
  · exact (hm hr 4 (by decide)).trans (hs.flg hr hc)
  · exact (hm hr 5 (by decide)).trans (hs.bd hr hc)
  · exact (hbytes hr (by decide)).trans (hs.csize hr hc hcs)
  · exact (hm hr _ (by show hcOff s.flgCSize < _; cases s.flgCSize <;> decide)).trans (hs.stored hr hc)
  · exact (hbytes hr (by show blkOff s.flgCSize + 4 ≤ _; cases s.flgCSize <;> decide)).trans (hs.blk hr hc)

/-! ### The parser's steps -/

theorem execChkmagic_keeps_coherent (hs : Coherent s) (hr : s.run = true) (hst : s.st = .start)
    (h : execChkmagic s = .next t) : Coherent t := by
  have hc : completed s.st = 0 := by rw [hst]; rfl
  obtain ⟨_, rfl⟩ | ⟨hl, bs, hb, ⟨_, rfl⟩ | ⟨hm, rfl⟩⟩ := execChkmagic_cases h
  · exact coherent_of_rest rfl
  · exact coherent_of_rest rfl
  · exact {
      magic := fun _ _ => ⟨bs, hb, hm⟩
      flg := fun _ => nofun
      bd := fun _ => nofun
      csize := fun _ => nofun
      stored := fun _ => nofun
      hash := fun _ => nofun
      blk := fun _ => nofun
      ahead2 := fun _ _ => hs.ahead2 hr (by omega)
      ahead3 := fun _ _ => hs.ahead3 hr (by omega)
      ahead4 := fun _ _ => hs.ahead4 hr (by omega)
      ahead5 := fun _ _ => hs.ahead5 hr (by omega)
      ahead6 := fun _ _ => hs.ahead6 hr (by omega)
      lenRead := fun _ => hl }

theorem execRdflg_keeps_coherent (hs : Coherent s) (hr : s.run = true) (hst : s.st = .magicRead)
    (h : execRdflg s = .next t) : Coherent t := by
  have hc : completed s.st = 1 := by rw [hst]; rfl
  obtain ⟨_, rfl⟩ | ⟨hl, b, hb, rfl⟩ := execRdflg_cases h
  · exact coherent_of_rest rfl
  · exact {
      magic := fun _ _ => hs.magic hr (by omega)
      flg := fun _ _ => hb
      bd := fun _ => nofun
      csize := fun _ => nofun
      stored := fun _ => nofun
      hash := fun _ => nofun
      blk := fun _ => nofun
      ahead2 := fun _ => nofun
      ahead3 := fun _ _ => hs.ahead3 hr (by omega)
      ahead4 := fun _ _ => hs.ahead4 hr (by omega)
      ahead5 := fun _ _ => hs.ahead5 hr (by omega)
      ahead6 := fun _ _ => hs.ahead6 hr (by omega)
      lenRead := fun _ => hl }

theorem execRdbd_keeps_coherent (hs : Coherent s) (hr : s.run = true) (hst : s.st = .flagsRead)
    (h : execRdbd s = .next t) : Coherent t := by
  have hc : completed s.st = 2 := by rw [hst]; rfl
  obtain ⟨_, rfl⟩ | ⟨hl, b, hb, rfl⟩ := execRdbd_cases h
  · exact coherent_of_rest rfl
  · exact {
      magic := fun _ _ => hs.magic hr (by omega)
      flg := fun _ _ => hs.flg hr (by omega)
      bd := fun _ _ => hb
      csize := fun _ => nofun
      stored := fun _ => nofun
      hash := fun _ => nofun
      blk := fun _ => nofun
      ahead2 := fun _ => nofun
      ahead3 := fun _ => nofun
      ahead4 := fun _ _ => hs.ahead4 hr (by omega)
      ahead5 := fun _ _ => hs.ahead5 hr (by omega)
      ahead6 := fun _ _ => hs.ahead6 hr (by omega)
      lenRead := fun _ => hl }

/-- R120: without a content size the six bytes read so far are all that `hc_off` counts. -/
theorem execBrcsize_keeps_coherent (hs : Coherent s) (hr : s.run = true) (hst : s.st = .blockDescRead)
    (h : execBrcsize s = .next t) : Coherent t := by
  have hc : completed s.st = 3 := by rw [hst]; rfl
  obtain ⟨hcs, rfl⟩ | ⟨_, _, rfl⟩ | ⟨hcs, hl, bs, hb, rfl⟩ := execBrcsize_cases h
  · have hl : hcOff s.flgCSize ≤ s.len.toNat := by
      have hread := hs.lenRead hr
      rw [hst] at hread
      rwa [hcs]
    exact {
      magic := fun _ _ => hs.magic hr (by omega)
      flg := fun _ _ => hs.flg hr (by omega)
      bd := fun _ _ => hs.bd hr (by omega)
      csize := fun _ _ hpresent => by cases hcs.symm.trans hpresent
      stored := fun _ => nofun
      hash := fun _ => nofun
      blk := fun _ => nofun
      ahead2 := fun _ => nofun
      ahead3 := fun _ => nofun
      ahead4 := fun _ => nofun
      ahead5 := fun _ _ => hs.ahead5 hr (by omega)
      ahead6 := fun _ _ => hs.ahead6 hr (by omega)
      lenRead := fun _ => hl }
  · exact coherent_of_rest rfl
  · have hl : hcOff s.flgCSize ≤ s.len.toNat := by rwa [hcs]
    exact {
      magic := fun _ _ => hs.magic hr (by omega)
      flg := fun _ _ => hs.flg hr (by omega)
      bd := fun _ _ => hs.bd hr (by omega)
      csize := fun _ _ _ => by rw [hb, leBytes_leDword (readBytes_length hb)]
      stored := fun _ => nofun
      hash := fun _ => nofun
      blk := fun _ => nofun
      ahead2 := fun _ => nofun
      ahead3 := fun _ => nofun
      ahead4 := fun _ => nofun
      ahead5 := fun _ _ => hs.ahead5 hr (by omega)
      ahead6 := fun _ _ => hs.ahead6 hr (by omega)
      lenRead := fun _ => hl }

/-- R131: the hash input lies in the buffer as the elements read from it say. -/
theorem Safety.Coherent.hash_span (hs : Coherent s) (hr : s.run = true) (hc : 4 ≤ completed s.st) :
    readBytes s.buf 4 (hashLen s.flgCSize) =
      some ([s.flg, s.bd] ++ if s.flgCSize then leBytes 8 s.csize.toNat else []) := by
  have hflg := hs.flg hr (by omega)
  have hbd := hs.bd hr (by omega)
  cases hcs : s.flgCSize with
  | false => exact readBytes_succ hflg (readBytes_succ hbd rfl)
  | true => exact readBytes_succ hflg (readBytes_succ hbd (hs.csize hr hc hcs))

theorem execRdhc_keeps_coherent (hs : Coherent s) (hr : s.run = true) (hst : s.st = .contentSizeBranch)
    (h : execRdhc s = .next t) : Coherent t := by
  have hc : completed s.st = 4 := by rw [hst]; rfl
  obtain ⟨_, rfl⟩ | ⟨hl, b, p, hb, hp, rfl⟩ := execRdhc_cases h
  · exact coherent_of_rest rfl
  · rw [hs.hash_span hr (by omega)] at hp
    injection hp with hp
    exact {
      magic := fun _ _ => hs.magic hr (by omega)
      flg := fun _ _ => hs.flg hr (by omega)
      bd := fun _ _ => hs.bd hr (by omega)
      csize := fun _ _ => hs.csize hr (by omega)
      stored := fun _ _ => hb
      hash := fun _ _ => congrArg headerHash hp.symm
      blk := fun _ => nofun
      ahead2 := fun _ => nofun
      ahead3 := fun _ => nofun
      ahead4 := fun _ => nofun
      ahead5 := fun _ => nofun
      ahead6 := fun _ _ => hs.ahead6 hr (by omega)
      lenRead := fun _ => hl }

theorem execRdblk_keeps_coherent (hs : Coherent s) (hr : s.run = true) (hst : s.st = .checksumRead)
    (h : execRdblk s = .next t) : Coherent t := by
  have hc : completed s.st = 5 := by rw [hst]; rfl
  obtain ⟨_, rfl⟩ | ⟨hl, bs, hb, rfl⟩ := execRdblk_cases h
  · exact coherent_of_rest rfl
  · have hblk : readBytes s.buf (blkOff s.flgCSize) 4 = some (leBytes 4
        (blockWord (blockFlagOf (leWord bs)) (blockSizeOf (leWord bs))).toNat) := by
      rw [hb, blockWord_blockFlagOf_blockSizeOf, leBytes_leWord (readBytes_length hb)]
    exact {
      magic := fun _ _ => hs.magic hr (by omega)
      flg := fun _ _ => hs.flg hr (by omega)
      bd := fun _ _ => hs.bd hr (by omega)
      csize := fun _ _ => hs.csize hr (by omega)
      stored := fun _ _ => hs.stored hr (by omega)
      hash := fun _ _ => hs.hash hr (by omega)
      blk := fun _ _ => hblk
      ahead2 := fun _ => nofun
      ahead3 := fun _ => nofun
      ahead4 := fun _ => nofun
      ahead5 := fun _ => nofun
      ahead6 := fun _ => nofun
      lenRead := fun _ => hl }

theorem execFinish_run (h : execFinish s = .next t) : t.run = false := by
  obtain ⟨_, _, rfl⟩ | ⟨_, rfl⟩ := execFinish_cases h
  · rfl
  · rfl

theorem parserStep_keeps_coherent (hs : Coherent s) (hr : s.run = true) (h : parserStep s = .next t) :
    Coherent t := by
  unfold parserStep at h
  cases hst : s.st <;> simp only [hst] at h
  case start => exact execChkmagic_keeps_coherent hs hr hst h
  case magicRead => exact execRdflg_keeps_coherent hs hr hst h
  case flagsRead => exact execRdbd_keeps_coherent hs hr hst h
  case blockDescRead => exact execBrcsize_keeps_coherent hs hr hst h
  case contentSizeBranch => exact execRdhc_keeps_coherent hs hr hst h
  case checksumRead => exact execRdblk_keeps_coherent hs hr hst h
  case dataBlockRead => exact coherent_of_rest (execFinish_run h)
  case done => cases h
  case error => cases h

/-! ### Every step -/

/-- A whole run keeps coherence: what it starts from is coherent by `coherent_beginRun`. -/
theorem parseRun_coherent {bs : List Byte} {strict : Bool} (h : parseRun bs strict s = .next t) : Coherent t := by
  unfold parseRun at h
  split at h
  · exact runParser_keeps (fun _ _ => parserStep_keeps_coherent) _ _ _ (coherent_beginRun strict _) h
  · cases h
  · cases h

/-- Settles O43: each case of a step; a fill during a run leaves the window as it was (R238). -/
theorem everyStepKeepsCoherence : Obligations.EveryStepKeepsCoherence := by
  intro s t _ hs hstep
  have hpop : Coherent (popMove s) := hs.with_window (fun _ _ _ => rfl) s.pending.tail s.replies
  cases step_cases hstep with
  | quiet ht => exact ht ▸ hs.with_window (fun _ _ _ => rfl) t.pending t.replies
  | parser hr h => exact parserStep_keeps_coherent hpop hr h
  | start v r hp hv hr ht => exact ht ▸ coherent_beginRun _ _
  | strict b hr ht => exact coherent_of_rest (ht ▸ hr)
  | len v hr ht => exact coherent_of_rest (ht ▸ hr)
  | reset r hp ht => exact coherent_of_rest (ht ▸ rfl)
  | fill a bs r hp ht hw =>
    have hwindow (hr : s.run = true) (b : Nat) (hb : b < windowLen) :
        readByte (writeBytes s.buf a bs) b = readByte s.buf b := by
      have hread := readByte_of_window (hw hr) hb
      rwa [ht] at hread
    exact ht ▸ hs.with_window hwindow s.pending.tail s.replies
  | header bs r hp h => exact parseRun_coherent h

/-- Settles O41: after reset the block is idle at `Start`, where coherence asks nothing. -/
theorem resetMeetsTheInvariants : Obligations.ResetMeetsTheInvariants :=
  ⟨blockInv_reset, coherent_of_rest rfl⟩

end Sys2Proof
end

section
/-! Which steps can change what (20_memory.md R51, 10_state.md R23, R24, 60_exceptions.md R212,
45_finish_and_sequencing.md R161): each from the cases of a step. -/

namespace Sys2Proof

open Machine Safety Claims

/-- Settles O48: of the cases of a step only the fill and the header move write the buffer. -/
theorem parserNeverWritesTheBuffer : Obligations.ParserNeverWritesTheBuffer := by
  rintro s t hstep ⟨a, ha⟩
  have hne : t.buf ≠ s.buf := fun hbuf => ha (by rw [hbuf])
  cases step_cases hstep with
  | quiet ht => exact absurd (by rw [ht]) hne
  | parser hr h =>
    obtain ⟨_, _, _, _, hbuf⟩ := parserStep_outside h
    exact absurd hbuf hne
  | start v r hp hv hr ht => exact absurd (by rw [ht]; rfl) hne
  | strict b hr ht => exact absurd (by rw [ht]; rfl) hne
  | len v hr ht => exact absurd (by rw [ht]; rfl) hne
  | reset r hp ht => exact absurd (by rw [ht]; rfl) hne
  | fill a bs r hp ht hw => exact .inl ⟨a, bs, r, hp⟩
  | header bs r hp h => exact .inr ⟨bs, r, hp⟩

/-- Settles O49: START and the two register writes that are made need `RUN = 0`. -/
theorem lenAndStrictConstantDuringRun : Obligations.LenAndStrictConstantDuringRun := by
  intro s t hstep hrun hchange
  have hkept (hl : t.len = s.len) (hs : t.strict = s.strict) {p : Prop} : p :=
    absurd hchange (by simp [hl, hs])
  cases step_cases hstep with
  | quiet ht => exact hkept (by rw [ht]) (by rw [ht])
  | parser hr h =>
    obtain ⟨hlen, hstrict, _⟩ := parserStep_outside h
    exact hkept hlen hstrict
  | start v r hp hv hr ht => rw [hr] at hrun; cases hrun
  | strict b hr ht => rw [hr] at hrun; cases hrun
  | len v hr ht => rw [hr] at hrun; cases hrun
  | reset r hp ht => exact .inl ⟨r, hp⟩
  | fill a bs r hp ht hw => exact hkept (by rw [ht]; rfl) (by rw [ht]; rfl)
  | header bs r hp h => exact .inr ⟨bs, r, hp⟩

/-- Settles O50: at rest only START, reset and a header move write `ST`. -/
theorem errorLeftOnlyByStartOrReset : Obligations.ErrorLeftOnlyByStartOrReset := by
  intro s t hst hrest hstep hleft
  cases step_cases hstep with
  | quiet ht => exact absurd (by rw [ht]; exact hst) hleft
  | parser hr h => rw [hrest] at hr; cases hr
  | start v r hp hv hr ht => exact .inl ⟨v, r, hp, hv, by rw [ht]; exact ⟨rfl, rfl, rfl⟩⟩
  | strict b hr ht => exact absurd (by rw [ht]; exact hst) hleft
  | len v hr ht => exact absurd (by rw [ht]; exact hst) hleft
  | reset r hp ht => exact .inr (.inl ⟨r, hp, by rw [ht]; exact ⟨rfl, rfl, rfl⟩⟩)
  | fill a bs r hp ht hw => exact absurd (by rw [ht]; exact hst) hleft
  | header bs r hp h => exact .inr (.inr ⟨bs, r, hp⟩)

/-- A state that differs outside the report elements has the same report. -/
theorem sameReport_of_eq {s t : State} (h : t = { s with
      st := t.st, run := t.run, strict := t.strict, len := t.len, err := t.err, warnHc := t.warnHc, buf := t.buf,
      pending := t.pending, replies := t.replies }) : SameReport s t := by
  rw [h]
  exact ⟨rfl, rfl, rfl, rfl, rfl, rfl, rfl, rfl, rfl, rfl⟩

theorem execFinish_sameReport {s t : State} (h : execFinish s = .next t) : SameReport s t := by
  obtain ⟨_, _, rfl⟩ | ⟨_, rfl⟩ := execFinish_cases h
  · exact sameReport_of_eq rfl
  · exact sameReport_of_eq rfl

/-- Settles O51: `execFinish_sameReport`; at rest only START, reset and a header move write a report element. -/
theorem reportStandsUntilStartOrReset : Obligations.ReportStandsUntilStartOrReset := by
  refine ⟨fun s t => execFinish_sameReport, fun s t hrest hstep => ?_⟩
  cases step_cases hstep with
  | quiet ht => exact .inl (sameReport_of_eq (ht ▸ rfl))
  | parser hr h => rw [hrest] at hr; cases hr
  | start v r hp hv hr ht => exact .inr (.inr ⟨_, r, hp, .inl ⟨v, rfl, hv⟩⟩)
  | strict b hr ht => exact .inl (sameReport_of_eq (ht ▸ rfl))
  | len v hr ht => exact .inl (sameReport_of_eq (ht ▸ rfl))
  | reset r hp ht => exact .inr (.inl ⟨r, hp⟩)
  | fill a bs r hp ht hw => exact .inl (sameReport_of_eq (ht ▸ rfl))
  | header bs r hp h => exact .inr (.inr ⟨_, r, hp, .inr ⟨bs, rfl⟩⟩)

end Sys2Proof
end

section
/-! The micro-operations' frame (10_state.md R20), the refusal of U4 (log 3), and the host's fill (log 1, log 4). -/

namespace Sys2Proof

open Machine Safety Claims

/-! ### Who writes what -/

/-- Settles O19: RESET keeps the host's side; for each micro-operation its inversion lemma names all it writes. -/
theorem microOperationFrame : Obligations.MicroOperationFrame := by
  refine ⟨fun s t h => by injection h with h; subst h; exact ⟨rfl, rfl⟩, fun i hi s t h => ?_⟩
  cases i, hi using uops_cases with
  | chkmagic => obtain ⟨_, rfl⟩ | ⟨_, _, _, ⟨_, rfl⟩ | ⟨_, rfl⟩⟩ := execChkmagic_cases h <;> simp [raise]
  | rdflg => obtain ⟨_, rfl⟩ | ⟨_, _, _, rfl⟩ := execRdflg_cases h <;> simp
  | rdbd => obtain ⟨_, rfl⟩ | ⟨_, _, _, rfl⟩ := execRdbd_cases h <;> simp
  | brcsize => obtain ⟨_, rfl⟩ | ⟨_, _, rfl⟩ | ⟨_, _, _, _, rfl⟩ := execBrcsize_cases h <;> simp
  | rdhc => obtain ⟨_, rfl⟩ | ⟨_, _, _, _, _, rfl⟩ := execRdhc_cases h <;> simp
  | rdblk => obtain ⟨_, rfl⟩ | ⟨_, _, _, rfl⟩ := execRdblk_cases h <;> simp
  | finish => obtain ⟨_, _, rfl⟩ | ⟨_, rfl⟩ := execFinish_cases h <;> simp [raise]

/-! ### A byte the host never provided -/

section

variable {s : State} {a n b : Nat} {k : List Byte → Host.Outcome State Fault Refusal}

/-- A range with a byte missing cannot be read. -/
theorem readBytes_of_absent {m : List Host.Cell} (hb : readByte m b = none) (h1 : a ≤ b) (h2 : b < a + n) :
    readBytes m a n = none := by
  induction n generalizing a with
  | zero => omega
  | succ n ih =>
    by_cases hab : a = b
    · rw [readBytes, hab, hb]
    · rw [readBytes, ih (by omega) (by omega)]
      cases readByte m a <;> rfl

theorem withBytes_of_absent (hb : readByte s.buf b = none) (h1 : a ≤ b) (h2 : b < a + n) :
    withBytes s a n k = .refused .bufferByteAbsent := by
  rw [withBytes, readBytes_of_absent hb h1 h2]

/-- U4: past the length test, a guarded read that needs a missing byte is refused. -/
theorem readField_of_absent (hl : a + n ≤ s.len.toNat) (hb : readByte s.buf b = none) (h1 : a ≤ b) (h2 : b < a + n) :
    readField s a n k = .refused .bufferByteAbsent := by
  rw [readField, if_neg (Nat.not_lt.2 hl), withBytes_of_absent hb h1 h2]

/-- RDHC reads its stored byte first, then the hash input below it; the missing byte is in one of the two. -/
theorem execRdhc_of_absent (hl : hcOff s.flgCSize + 1 ≤ s.len.toNat) (hb : readByte s.buf b = none) (h1 : 4 ≤ b)
    (h2 : b < hcOff s.flgCSize + 1) : execRdhc s = .refused .bufferByteAbsent := by
  cases hstored : readByte s.buf (hcOff s.flgCSize) with
  | none => exact readField_of_absent hl hstored (Nat.le_refl _) (Nat.lt_succ_self _)
  | some v =>
    have hne : b ≠ hcOff s.flgCSize := fun hbo => by rw [hbo, hstored] at hb; cases hb
    have hspan : b < 4 + hashLen s.flgCSize := by rw [hashLen]; omega
    rw [execRdhc, readField_byte hl hstored, withBytes_of_absent hb h1 hspan]

end

/-- Settles O20: the guarded read of each micro-operation covers the range; BRCSIZE without a content size and FINISH
read nothing. -/
theorem absentByteBelowLenIsRefused : Obligations.AbsentByteBelowLenIsRefused := by
  rintro i hi s hl ⟨b, h1, h2, hb⟩
  cases i, hi using uops_cases with
  | chkmagic => exact readField_of_absent hl hb h1 h2
  | rdflg => exact readField_of_absent hl hb h1 h2
  | rdbd => exact readField_of_absent hl hb h1 h2
  | brcsize =>
    rw [readEnd_brcsize] at hl h2
    cases hc : s.flgCSize with
    | false => rw [hc] at h2; exact absurd h2 (Nat.not_lt_zero _)
    | true =>
      rw [hc] at hl h2
      exact (execBrcsize_present hc).trans (readField_of_absent hl hb h1 h2)
  | rdhc =>
    rw [readEnd_rdhc] at hl h2
    exact execRdhc_of_absent hl hb h1 h2
  | rdblk =>
    rw [readEnd_rdblk] at hl h2
    have h1 : blkOff s.flgCSize ≤ b := by rw [blkOff_eq]; exact h1
    exact readField_of_absent hl hb h1 h2
  | finish => exact absurd h2 (Nat.not_lt_zero _)

/-! ### The host fills the buffer -/

section

variable {m m' : List Host.Cell} {a b i : Nat} {bs : List Byte}

/-- R185: the bytes written read back. -/
theorem readByte_writeBytes_inside (h : i < bs.length) : readByte (writeBytes m a bs) (a + i) = bs[i]? := by
  rw [readByte_writeBytes, if_pos ⟨Nat.le_add_right a i, Nat.add_lt_add_left h a⟩, Nat.add_sub_cancel_left]

/-- R185: every other offset reads as before. -/
theorem readByte_writeBytes_outside (h : b < a ∨ a + bs.length ≤ b) :
    readByte (writeBytes m a bs) b = readByte m b := by
  rw [readByte_writeBytes, if_neg (by omega)]

theorem windowChanged_of_ne (hb : b < windowLen) (h : readByte m b ≠ readByte m' b) : windowChanged m m' = true :=
  List.any_eq_true.2 ⟨b, List.mem_range.2 hb, bne_iff_ne.2 h⟩

theorem windowChanged_of_eq (h : ∀ b, b < windowLen → readByte m' b = readByte m b) : windowChanged m m' = false := by
  cases hw : windowChanged m m' with
  | false => rfl
  | true =>
    obtain ⟨b, hb, hne⟩ := List.any_eq_true.1 hw
    exact absurd (h b (List.mem_range.1 hb)).symm (bne_iff_ne.1 hne)

/-- R238: a fill is made at rest, and during a run where it leaves the window as it is. -/
theorem fillBuffer_of_window {s : State} (h : s.run = true → windowChanged s.buf (writeBytes s.buf a bs) = false) :
    fillBuffer a bs s = .next { s with buf := writeBytes s.buf a bs } := by
  rw [fillBuffer, if_neg]
  simpa using h

end

/-- Settles O34: the fill is made, and `readByte_writeBytes` tells every offset apart. -/
theorem fillThenReadBack : Obligations.FillThenReadBack := by
  intro s a bs r hp hr
  refine ⟨_, (step_fill hp).trans (fillBuffer_of_window fun hrun => ?_), rfl, ?_, rfl, fun i hi => ?_, fun b hb => ?_⟩
  · exact absurd hrun (by simp [hr])
  · exact congrArg List.tail hp
  · exact readByte_writeBytes_inside hi
  · exact readByte_writeBytes_outside hb

/-- Settles O35: a byte that changes below 19 is what `windowChanged` finds; from 19 on it finds none. -/
theorem bufferChangeDuringRunIsRefused : Obligations.BufferChangeDuringRunIsRefused := by
  refine fun s a bs r hp hr => ⟨fun ⟨i, hi, hlt, hne⟩ => ?_, fun ha => ?_⟩
  · have hchanged : windowChanged s.buf (writeBytes s.buf a bs) = true :=
      windowChanged_of_ne hlt (by rwa [readByte_writeBytes_inside hi])
    rw [step_fill hp, fillBuffer, if_pos]
    exact (Bool.and_eq_true _ _).mpr ⟨hr, hchanged⟩
  · have hbelow (b : Nat) (hb : b < 19) : readByte (writeBytes s.buf a bs) b = readByte s.buf b :=
      readByte_writeBytes_outside (.inl (hb.trans_le ha))
    exact ⟨_, (step_fill hp).trans (fillBuffer_of_window fun _ => windowChanged_of_eq hbelow), rfl,
      fun i hi => readByte_writeBytes_inside hi, hbelow⟩

end Sys2Proof
end

section
/-! The views of FLG (41_descriptors.md), and the checksum hash written out (43_header_checksum.md section 2). -/

namespace Sys2Proof

open Machine Claims

/-! ### FLG -/

/-- A bit of a word as arithmetic on its value. -/
theorem getLsbD_eq_div_mod {w : Nat} (b : BitVec w) (i : Nat) : b.getLsbD i = (b.toNat / 2 ^ i % 2 == 1) := by
  rw [BitVec.getLsbD, Nat.testBit_eq_decide_div_mod_eq]
  rfl

/-- R111: the version is what stands above bit 5. -/
theorem flgFields_version_toNat (b : Byte) : (flgFields b).version.toNat = b.toNat / 64 := by
  have hb : b.toNat < 256 := b.isLt
  rw [flgFields, BitVec.extractLsb'_toNat, Nat.shiftRight_eq_div_pow]
  omega

/-- Settles O22: the version by `flgFields_version_toNat`, the single bits by `getLsbD_eq_div_mod`. -/
theorem flgFieldsAreSlices : Obligations.FlgFieldsAreSlices := by
  refine fun s => ⟨flgFields_version_toNat s.flg, getLsbD_eq_div_mod s.flg 5, getLsbD_eq_div_mod s.flg 4,
    getLsbD_eq_div_mod s.flg 3, getLsbD_eq_div_mod s.flg 2, ?_⟩
  have h := getLsbD_eq_div_mod s.flg 0
  rwa [Nat.pow_zero, Nat.div_one] at h

/-! ### XXH32 below 16 bytes -/

theorem avalanche_eq_finalMix (h : Word) : avalanche h = finalMix h := rfl

/-- R135: a string below 16 bytes goes through the two loops and the avalanche. -/
theorem hash32_of_length_lt {p : List Byte} (h : p.length < 16) (seed : Word) :
    hash32 p seed = finalMix (hashLoops p (seed + prime5 + BitVec.ofNat 32 p.length)) := by
  rw [hash32, xxh32, if_pos h, avalanche_eq_finalMix]

/-- R136: two bytes are two turns of R135's second loop. -/
theorem hashLoops_two (b0 b1 : Byte) (h : Word) : hashLoops [b0, b1] h = byteStep (byteStep h b0) b1 := rfl

/-- R137: ten bytes are two turns of R135's first loop and two of its second. -/
theorem hashLoops_ten (b0 b1 b2 b3 b4 b5 b6 b7 b8 b9 : Byte) (h : Word) :
    hashLoops [b0, b1, b2, b3, b4, b5, b6, b7, b8, b9] h =
      byteStep (byteStep (wordStep (wordStep h (leWord [b0, b1, b2, b3])) (leWord [b4, b5, b6, b7])) b8) b9 := rfl

/-- Settles O24: `hashLoops_two` from R136's initial value. -/
theorem hashOfTwoBytes : Obligations.HashOfTwoBytes := by
  intro flg bd
  have hinit : 0 + prime5 + BitVec.ofNat 32 [flg, bd].length = 0x165667B3 := rfl
  rw [hash32_of_length_lt (by simp), hinit, hashLoops_two]

/-- Settles O25: `hashLoops_ten` from R137's initial value, the two words by `leWord_four`. -/
theorem hashOfTenBytes : Obligations.HashOfTenBytes := by
  intro b0 b1 b2 b3 b4 b5 b6 b7 b8 b9
  have hinit : 0 + prime5 + BitVec.ofNat 32 [b0, b1, b2, b3, b4, b5, b6, b7, b8, b9].length = 0x165667BB := rfl
  rw [hash32_of_length_lt (by simp), hinit, hashLoops_ten, leWord_four, leWord_four]

/-- Settles O26: by evaluation of the hash. -/
theorem hashCheckValues : Obligations.HashCheckValues :=
  ⟨rfl, rfl, rfl, rfl, rfl, rfl, rfl⟩

end Sys2Proof
end

section
/-! STATUS within the invariants (95_test_vectors.md section 6), and the host's wait and PARSE as single steps
(30_encoding.md R88). -/

namespace Sys2Proof

open Machine Safety

/-! ### The values of STATUS -/

section

variable {s : State}

/-- The state after reset but for the elements STATUS shows. -/
def statusState (st : SeqState) (run : Bool) (err : ErrCode) (warnHc csizeValid : Bool) : State :=
  { State.reset with st := st, run := run, err := err, warnHc := warnHc, csizeValid := csizeValid }

/-- R42: STATUS is made of these five elements alone. -/
theorem statusReg_eq_statusState {st : SeqState} {run warn valid : Bool} {err : ErrCode} (hst : s.st = st)
    (hrun : s.run = run) (herr : s.err = err) (hwarn : s.warnHc = warn) (hvalid : s.csizeValid = valid) :
    s.statusReg = (statusState st run err warn valid).statusReg := by
  subst hst hrun herr hwarn hvalid
  rfl

/-- R232: outside `Start` and the terminal states a run is in progress. -/
theorem Safety.BlockInv.run_eq_true (hs : BlockInv s) (hlive : terminal s.st = false) (hst : s.st ≠ .start) :
    s.run = true := by
  by_contra hr
  exact hst (hs.idle (by simpa using hr) hlive)

/-- R22: no run in a terminal state. -/
theorem Safety.BlockInv.run_eq_false (hs : BlockInv s) (hterm : terminal s.st = true) : s.run = false := by
  by_contra hr
  cases hterm.symm.trans (hs.runLive (by simpa using hr))

/-- R26: of the errors only a mismatch comes with `WARN_HC`. -/
theorem Safety.BlockInv.warnHc_eq_false_of_error (hs : BlockInv s) (hst : s.st = .error)
    (h : s.err ≠ .checksumMismatch) : s.warnHc = false := by
  by_contra hw
  obtain hdone | ⟨_, he⟩ := hs.warnState (by simpa using hw)
  · cases hst.symm.trans hdone
  · exact h he

end

/-- Settles O52: in each state of the sequencer the invariants leave the listed values of the elements STATUS shows. -/
theorem statusTakesTwentyValues : Obligations.StatusTakesTwentyValues := by
  intro s hs
  cases hst : s.st with
  | start =>
    have herr : s.err = .none := hs.err_eq_none (by simp [hst])
    have hwarn : s.warnHc = false := hs.warnHc_eq_false (by simp [hst, terminal])
    have hvalid : s.csizeValid = false := hs.csizeNotYet (by simp [hst]) (by simp [hst, completed])
    cases hrun : s.run <;> (rw [statusReg_eq_statusState hst hrun herr hwarn hvalid]; decide)
  | magicRead | flagsRead | blockDescRead =>
    have hlive : terminal s.st = false := by simp [hst, terminal]
    have hrun : s.run = true := hs.run_eq_true hlive (by simp [hst])
    have herr : s.err = .none := hs.err_eq_none (by simp [hst])
    have hvalid : s.csizeValid = false := hs.csizeNotYet (by simp [hst]) (by simp [hst, completed])
    rw [statusReg_eq_statusState hst hrun herr (hs.warnHc_eq_false hlive) hvalid]
    decide
  | contentSizeBranch | checksumRead | dataBlockRead =>
    have hlive : terminal s.st = false := by simp [hst, terminal]
    have hrun : s.run = true := hs.run_eq_true hlive (by simp [hst])
    have herr : s.err = .none := hs.err_eq_none (by simp [hst])
    have hwarn : s.warnHc = false := hs.warnHc_eq_false hlive
    cases hvalid : s.csizeValid <;> (rw [statusReg_eq_statusState hst hrun herr hwarn hvalid]; decide)
  | done =>
    have hrun : s.run = false := hs.run_eq_false (by simp [hst, terminal])
    have herr : s.err = .none := hs.err_eq_none (by simp [hst])
    cases hwarn : s.warnHc <;> cases hvalid : s.csizeValid <;>
      (rw [statusReg_eq_statusState hst hrun herr hwarn hvalid]; decide)
  | error =>
    have hrun : s.run = false := hs.run_eq_false (by simp [hst, terminal])
    cases herr : s.err with
    | none => exact absurd herr (hs.errState.2 hst)
    | invalidMagic =>
      have hwarn : s.warnHc = false := hs.warnHc_eq_false_of_error hst (by simp [herr])
      rw [statusReg_eq_statusState hst hrun herr hwarn (hs.csizeNotOnMagic herr)]
      decide
    | truncatedHeader =>
      have hwarn : s.warnHc = false := hs.warnHc_eq_false_of_error hst (by simp [herr])
      cases hvalid : s.csizeValid <;> (rw [statusReg_eq_statusState hst hrun herr hwarn hvalid]; decide)
    | checksumMismatch =>
      have hwarn : s.warnHc = true := hs.mismatchWarns herr
      cases hvalid : s.csizeValid <;> (rw [statusReg_eq_statusState hst hrun herr hwarn hvalid]; decide)

/-! ### The host's compound moves -/

/-- Settles O53: `expandParse` puts the moves in place; the START word by `decodeWrite_startWord`. -/
theorem parseExpandsToTheHostSequence : Obligations.ParseExpandsToTheHostSequence := by
  intro s bs strict r hp
  refine ⟨_, startWord strict, step_parse hp, rfl, congrArg Except.ok (decodeWrite_startWord strict), ?_⟩
  rw [expandParse_pending, popMove_run, popMove_pending, hp]
  rfl

/-- R88: a wait during a run reads STATUS and stays, after one turn of the parser. -/
theorem step_poll_running {s : State} {r : List Move} (hp : s.pending = .pollStatus :: r) (hr : s.run = true) :
    step s = .next { s with replies := s.statusReg :: s.replies, pending := .parserTurn :: .pollStatus :: r } := by
  rw [step_poll hp, pollAgain_run (s := popMove s) hr, popMove_of_pending hp]
  rfl

/-- R88: a wait at rest reads STATUS and is over. -/
theorem step_poll_rest {s : State} {r : List Move} (hp : s.pending = .pollStatus :: r) (hr : s.run = false) :
    step s = .next { s with replies := s.statusReg :: s.replies, pending := r } := by
  rw [step_poll hp, pollAgain_rest (s := popMove s) hr, popMove_of_pending hp]
  rfl

/-- Settles O54: `step_poll_running` and `step_poll_rest`; bit 4 of STATUS by `status_bit4`. -/
theorem waitReadsStatusUntilRunFalls : Obligations.WaitReadsStatusUntilRunFalls := by
  refine fun s r hp => ⟨?_, status_bit4 s⟩
  by_cases hr : s.run = true
  · rw [if_pos hr]
    exact step_poll_running hp hr
  · rw [if_neg hr]
    exact step_poll_rest hp (by simpa using hr)

end Sys2Proof
end

section
/-! Runs of the parser (45_finish_and_sequencing.md R171): steps taken one after the other, and that a run ends. -/

namespace Sys2Proof

open Machine Safety Claims

/-- `n` parser steps, each taken while `RUN = 1`, lead from `s` to `t`. -/
inductive ParserSteps : Nat → State → State → Prop
  | zero (s : State) : ParserSteps 0 s s
  | cons {n : Nat} {s u t : State} (hr : s.run = true) (h : parserStep s = .next u) (hs : ParserSteps n u t) :
      ParserSteps (n + 1) s t

section

variable {n k : Nat} {s u t : State}

theorem ParserSteps.snoc (hs : ParserSteps n s u) (hr : u.run = true) (h : parserStep u = .next t) :
    ParserSteps (n + 1) s t := by
  induction hs with
  | zero s => exact .cons hr h (.zero t)
  | cons hr' h' _ ih => exact .cons hr' h' (ih hr h)

theorem ParserSteps.runParser_eq (hs : ParserSteps n s t) : runParser n s = .next t := by
  induction hs with
  | zero s => rfl
  | cons hr h _ ih => rw [runParser_step hr h, ih]

/-- R20, R51: what no micro-operation writes, no run writes. -/
theorem ParserSteps.outside (hs : ParserSteps n s t) :
    t.len = s.len ∧ t.strict = s.strict ∧ t.pending = s.pending ∧ t.replies = s.replies ∧ t.buf = s.buf := by
  induction hs with
  | zero s => exact ⟨rfl, rfl, rfl, rfl, rfl⟩
  | cons hr h _ ih =>
    obtain ⟨hl, hs, hp, hq, hb⟩ := parserStep_outside h
    rwa [hl, hs, hp, hq, hb] at ih

/-- Before its last step a run is still in progress. -/
theorem ParserSteps.running_before (hs : ParserSteps n s t) (hk : k < n) :
    ∃ u, runParser k s = .next u ∧ u.run = true := by
  induction hs generalizing k with
  | zero s => exact absurd hk (Nat.not_lt_zero k)
  | @cons n s u t hr h _ ih =>
    cases k with
    | zero => exact ⟨s, rfl, hr⟩
    | succ k =>
      rw [runParser_step hr h]
      exact ih (Nat.lt_of_succ_lt_succ hk)

/-- Once `RUN = 0`, further steps are none. -/
theorem ParserSteps.runParser_of_le (hs : ParserSteps n s t) (ht : t.run = false) (hk : n ≤ k) :
    runParser k s = .next t := by
  obtain ⟨j, rfl⟩ := Nat.exists_eq_add_of_le hk
  rw [runParser_add n j hs.runParser_eq, runParser_rest ht]

end

/-! ### A run ends -/

/-- R165: each step of the table completes one micro-operation more. -/
theorem completed_successor {q : SeqState} (h : terminal q = false) : completed (successor q) = completed q + 1 := by
  cases q with
  | done | error => cases h
  | start | magicRead | flagsRead | blockDescRead | contentSizeBranch | checksumRead | dataBlockRead => rfl

/-- R165: the successor of a running state is running or `Done`. -/
theorem terminal_successor {q : SeqState} (h : terminal q = false) (hd : successor q ≠ .done) :
    terminal (successor q) = false := by
  cases q with
  | done | error => cases h
  | dataBlockRead => exact absurd rfl hd
  | start | magicRead | flagsRead | blockDescRead | contentSizeBranch | checksumRead => rfl

theorem completed_lt_seven {q : SeqState} (h : terminal q = false) : completed q < 7 := by
  cases q with
  | done | error => cases h
  | start | magicRead | flagsRead | blockDescRead | contentSizeBranch | checksumRead | dataBlockRead => decide

/-- R165, R171: a step that leaves `RUN = 1` has moved on by one micro-operation and is in a running state again. -/
theorem parserStep_progress {s t : State} (hr : s.run = true) (hlive : terminal s.st = false)
    (h : parserStep s = .next t) (ht : t.run = true) :
    terminal t.st = false ∧ completed t.st = completed s.st + 1 := by
  obtain ⟨hst, _, hrun⟩ | ⟨_, hrun, _⟩ := parserStep_tableRow hr h
  · have hne : successor s.st ≠ .done := by
      rw [← hst]
      exact bne_iff_ne.1 (hrun.symm.trans ht)
    rw [hst]
    exact ⟨terminal_successor hlive hne, completed_successor hlive⟩
  · cases hrun.symm.trans ht

/-- R185: the host's duty outlasts a parser step, which writes neither `LEN` nor the buffer. -/
theorem bufReady_of_parserStep {s t : State} (hb : BufReady s) (h : parserStep s = .next t) : BufReady t := by
  obtain ⟨hlen, _, _, _, hbuf⟩ := parserStep_outside h
  unfold BufReady
  rwa [hlen, hbuf]

/-- R171: with the bytes provided, a run with at most `m` micro-operations to go ends within `m` steps. -/
theorem exists_parserSteps (m : Nat) {s : State} (hb : BufReady s) (hlive : s.run = true → terminal s.st = false)
    (hm : 7 ≤ completed s.st + m) : ∃ n u, n ≤ m ∧ ParserSteps n s u ∧ u.run = false := by
  by_cases hr : s.run = true
  · induction m generalizing s with
    | zero => exact absurd hm (Nat.not_le.2 (completed_lt_seven (hlive hr)))
    | succ m ih =>
      obtain ⟨t, ht⟩ := parserStep_answers hb (hlive hr)
      by_cases htr : t.run = true
      · obtain ⟨hlive', hc⟩ := parserStep_progress hr (hlive hr) ht htr
        obtain ⟨n, u, hn, hsteps, hu⟩ := ih (bufReady_of_parserStep hb ht) (fun _ => hlive') (by omega) htr
        exact ⟨n + 1, u, Nat.succ_le_succ hn, .cons hr ht hsteps, hu⟩
      · exact ⟨1, t, Nat.succ_le_succ (Nat.zero_le m), .cons hr ht (.zero t), by simpa using htr⟩
  · exact ⟨0, s, Nat.zero_le m, .zero s, by simpa using hr⟩

/-- R171: every run ends within seven steps. -/
theorem exists_parserSteps_seven {s : State} (hb : BufReady s) (hlive : s.run = true → terminal s.st = false) :
    ∃ n u, n ≤ 7 ∧ ParserSteps n s u ∧ u.run = false :=
  exists_parserSteps 7 hb hlive (Nat.le_add_left 7 _)

/-- Settles O45: steps of the machine are the parser's, since nothing is pending. -/
theorem runEndsWithinSevenSteps : Obligations.RunEndsWithinSevenSteps := by
  intro s hs hb _ hp
  obtain ⟨n, u, hn, hsteps, hu⟩ := exists_parserSteps_seven hb hs.runLive
  exact ⟨n, hn, u, (runSteps_eq_runParser n hp).trans hsteps.runParser_eq, hu⟩

/-! ### A header's run waits for the one in progress -/

/-- R236 step 1: a whole run from `s` is one from where the run in progress ends. -/
theorem parseRun_of_runParser {bs : List Byte} {strict : Bool} {s u : State} (h : runParser 7 s = .next u)
    (hu : u.run = false) : parseRun bs strict s = parseRun bs strict u := by
  have hrest : runParser 7 u = .next u := runParser_rest hu 7
  unfold parseRun maxSteps
  rw [h, hrest]

/-- Settles O38: the run in progress ends by R171 with `STRICT` as it was. -/
theorem frameWaitsForTheRunInProgress : Obligations.FrameWaitsForTheRunInProgress := by
  intro s hs hb _
  obtain ⟨n, u, hn, hsteps, hu⟩ := exists_parserSteps_seven hb hs.runLive
  obtain ⟨_, hstrict, _⟩ := hsteps.outside
  have hend : runParser 7 s = .next u := hsteps.runParser_of_le hu hn
  refine ⟨u, hend, hu, fun f => ?_, fun f c => ?_⟩
  · show parseRun _ s.strict s = parseRun _ u.strict u
    rw [parseRun_of_runParser hend hu, hstrict]
  · show parseRun _ s.strict s = parseRun _ u.strict u
    rw [parseRun_of_runParser hend hu, hstrict]

/-! ### No stop -/

/-- R236: after the fill and the LEN write, what lies below `LEN` is the bytes given. -/
theorem readByte_prepareRun {bs : List Byte} {strict : Bool} {s : State} {a : Nat}
    (ha : a < min (prepareRun bs strict s).len.toNat windowLen) :
    a < bs.length ∧ readByte (prepareRun bs strict s).buf a = bs[a]? := by
  have hlen : a < bs.length := (ha.trans_le (Nat.min_le_left ..)).trans_le (lenOf_le bs.length)
  have hread := readByte_writeBytes_inside (m := s.buf) (a := 0) hlen
  rw [Nat.zero_add] at hread
  exact ⟨hlen, hread⟩

theorem bufReady_prepareRun (bs : List Byte) (strict : Bool) (s : State) : BufReady (prepareRun bs strict s) := by
  intro a ha
  obtain ⟨hlen, hread⟩ := readByte_prepareRun ha
  rw [hread, List.getElem?_eq_getElem hlen]
  rfl

theorem parseRun_answers (bs : List Byte) (strict : Bool) {s : State} (hb : BufReady s)
    (hlive : s.run = true → terminal s.st = false) : ∃ t, parseRun bs strict s = .next t := by
  obtain ⟨n, u, hn, hsteps, hu⟩ := exists_parserSteps_seven hb hlive
  obtain ⟨k, t, hk, hsteps', ht⟩ := exists_parserSteps_seven (bufReady_prepareRun bs strict u) fun _ => rfl
  refine ⟨t, ?_⟩
  rw [parseRun, maxSteps, hsteps.runParser_of_le hu hn]
  exact hsteps'.runParser_of_le ht hk

theorem exec_decodeWrite_answers (n : Nat) (v : Word) (s : State) : ∃ t, exec (decodeWrite n v) s = .next t := by
  unfold decodeWrite
  split
  · exact ⟨_, rfl⟩
  · exact ⟨_, rfl⟩

theorem parserMove_answers {s : State} (hb : BufReady s) (hlive : s.run = true → terminal s.st = false) :
    ∃ t, parserMove s = .next t := by
  unfold parserMove
  split
  · exact parserStep_answers hb (hlive ‹_›)
  · exact ⟨_, rfl⟩

/-- Settles O47: the parser's turns and header moves need the bytes of the run, every other move nothing but what
the premise on fills says. -/
theorem noStopWhenTheHostKeepsItsDuties : Obligations.NoStopWhenTheHostKeepsItsDuties := by
  intro s hs hb hfill
  match hp : s.pending with
  | [] => rw [step_nil hp]; exact parserMove_answers hb hs.runLive
  | .parserTurn :: r => rw [step_turn hp]; exact parserMove_answers (s := popMove s) hb hs.runLive
  | .write n v :: r => rw [step_write hp]; exact exec_decodeWrite_answers n v _
  | .read n :: r => exact ⟨_, step_read hp⟩
  | .reset :: r => exact ⟨_, step_reset hp⟩
  | .fill a bs :: r =>
    have hrest : (popMove s).run = false := hfill a bs r hp
    exact ⟨_, (step_fill hp).trans (fillBuffer_of_window fun hr => by cases hrest.symm.trans hr)⟩
  | .header bs :: r => rw [step_header hp]; exact parseRun_answers bs s.strict (s := popMove s) hb hs.runLive
  | .pollStatus :: r => exact ⟨_, step_poll hp⟩
  | .parse bs strict :: r => exact ⟨_, step_parse hp⟩

end Sys2Proof
end

section
/-! The whole parse as one table (45_finish_and_sequencing.md R168): the states a run passes through, and each line of
the table as the steps that lead to it. -/

namespace Sys2Proof

open Machine Safety Claims

/-! ### The states after each micro-operation, over the buffer bytes `B` -/

section

variable (B : Nat → Byte) (s : State)

/-- After CHKMAGIC. -/
def afterMagic : State := { s with magic := parsedMagic B, nread := 4, st := .magicRead }

/-- After RDFLG. -/
def afterFlg : State := { afterMagic B s with flg := B 4, nread := 5, st := .flagsRead }

/-- After RDBD. -/
def afterBd : State := { afterFlg B s with bd := B 5, nread := 6, st := .blockDescRead }

/-- After BRCSIZE, in either arm. -/
def afterCsize : State :=
  { (if parsedCs B then { afterBd B s with csize := parsedCsize B, csizeValid := true, nread := 14 }
      else afterBd B s) with st := .contentSizeBranch }

/-- R120: without a content size BRCSIZE moves `ST` alone. -/
theorem afterCsize_absent (h : parsedCs B = false) :
    afterCsize B s = { afterBd B s with st := .contentSizeBranch } := by
  rw [afterCsize, h]
  rfl

/-- R120: with one, `CSIZE` with its flag and `NREAD`. -/
theorem afterCsize_present (h : parsedCs B = true) :
    afterCsize B s = { afterBd B s with
      csize := parsedCsize B, csizeValid := true, nread := 14, st := .contentSizeBranch } := by
  rw [afterCsize, h]
  rfl

/-- After RDHC. -/
def afterChecksum : State :=
  { afterCsize B s with
    hcStored := parsedStored B, hash := parsedHash B, nread := if parsedCs B then 15 else 7, st := .checksumRead }

/-- After RDBLK. -/
def afterBlock : State :=
  { afterChecksum B s with
    blkFlag := (parsedBlock B).getLsbD 31, blkSize := (parsedBlock B).extractLsb' 0 31,
    nread := if parsedCs B then 19 else 11, st := .dataBlockRead }

end

/-- The bytes a run from `s` can read are those of `B` (R50). -/
def BytesAre (B : Nat → Byte) (s : State) : Prop := ∀ a, a < min s.len.toNat 19 → readByte s.buf a = some (B a)

section

variable {B : Nat → Byte} {s : State}

theorem BytesAre.readByte (hB : BytesAre B s) {a : Nat} (hl : a < s.len.toNat) (hw : a < 19) :
    readByte s.buf a = some (B a) :=
  hB a (lt_min hl hw)

theorem BytesAre.readBytes (hB : BytesAre B s) {a n : Nat} (hl : a + n ≤ s.len.toNat) (hw : a + n ≤ 19) :
    readBytes s.buf a n = some ((List.range' a n).map B) :=
  readBytes_of_bytes fun i hi => hB.readByte (by omega) (by omega)

/-! ### One micro-operation from each of them -/

/-- R100: CHKMAGIC over the bytes `B`. -/
theorem execChkmagic_bytesAre (hB : BytesAre B s) (hl : 4 ≤ s.len.toNat) :
    execChkmagic s = .next (if parsedMagic B = Config.magicConst then afterMagic B s
      else raise .invalidMagic { s with magic := parsedMagic B, nread := 4 }) := by
  have hword : leWord [B 0, B 1, B 2, B 3] = parsedMagic B := leWord_four ..
  have h := execChkmagic_of_bytes (bs := [B 0, B 1, B 2, B 3]) hl (hB.readBytes hl (by decide))
  rwa [hword] at h

theorem execRdflg_bytesAre (hB : BytesAre B s) (hl : 5 ≤ s.len.toNat) :
    execRdflg (afterMagic B s) = .next (afterFlg B s) :=
  execRdflg_of_byte hl (hB.readByte hl (by decide))

theorem execRdbd_bytesAre (hB : BytesAre B s) (hl : 6 ≤ s.len.toNat) :
    execRdbd (afterFlg B s) = .next (afterBd B s) :=
  execRdbd_of_byte hl (hB.readByte hl (by decide))

/-- R120: the branch is on bit 3 of the byte at offset 4. -/
theorem execBrcsize_bytesAre (hB : BytesAre B s) (hl : hcOff (parsedCs B) ≤ s.len.toNat) :
    execBrcsize (afterBd B s) = .next (afterCsize B s) := by
  cases hcs : parsedCs B with
  | false => rw [afterCsize_absent B s hcs]; exact execBrcsize_absent hcs
  | true =>
    rw [hcs] at hl
    rw [afterCsize_present B s hcs]
    exact execBrcsize_of_bytes hcs hl fun a _ ha => hB.readByte (ha.trans_le hl) (by omega)

section

variable (B s)

/-- What BRCSIZE leaves: FLG, `LEN` and the buffer. -/
theorem afterCsize_inputs : (afterCsize B s).flgCSize = parsedCs B ∧ (afterCsize B s).len = s.len
    ∧ (afterCsize B s).buf = s.buf ∧ (afterCsize B s).run = s.run := by
  cases hcs : parsedCs B with
  | false => rw [afterCsize_absent B s hcs]; exact ⟨hcs, rfl, rfl, rfl⟩
  | true => rw [afterCsize_present B s hcs]; exact ⟨hcs, rfl, rfl, rfl⟩

end

/-- R130, R131: the stored byte and the hash input as R168 names them. -/
theorem execRdhc_bytesAre (hB : BytesAre B s) (hl : hcOff (parsedCs B) + 1 ≤ s.len.toNat) :
    execRdhc (afterCsize B s) = .next (afterChecksum B s) := by
  obtain ⟨hcs, hlen, hbuf, _⟩ := afterCsize_inputs B s
  have hw : hcOff (parsedCs B) + 1 ≤ 19 := by cases parsedCs B <;> decide
  have h := execRdhc_of_bytes (B := B) hcs (by rwa [hlen])
    fun a _ ha => by rw [hbuf]; exact hB.readByte (ha.trans_le hl) (ha.trans_le hw)
  rw [h, afterChecksum, parsedStored, parsedHash]
  cases parsedCs B <;> rfl

/-- R150: the data-block field as R168 names it. -/
theorem execRdblk_bytesAre (hB : BytesAre B s) (hl : endOff (parsedCs B) ≤ s.len.toNat) :
    execRdblk (afterChecksum B s) = .next (afterBlock B s) := by
  obtain ⟨hcs, hlen, hbuf, _⟩ := afterCsize_inputs B s
  have hcs : (afterChecksum B s).flgCSize = parsedCs B := hcs
  have hlen : (afterChecksum B s).len = s.len := hlen
  have hbuf : (afterChecksum B s).buf = s.buf := hbuf
  have hw : endOff (parsedCs B) ≤ 19 := by cases parsedCs B <;> decide
  have hbytes := hB.readBytes (a := blkOff (parsedCs B)) (n := 4) hl hw
  have hword : leWord ((List.range' (blkOff (parsedCs B)) 4).map B) = parsedBlock B := by
    rw [parsedBlock]
    cases parsedCs B with
    | false => exact leWord_four ..
    | true => exact leWord_four ..
  have h := execRdblk_of_bytes (s := afterChecksum B s) (by rwa [hcs, hlen]) (by rwa [hcs, hbuf])
  rw [h, hcs, hword, afterBlock, ← ofNat_endOff]
  rfl

/-! ### The steps of a run -/

theorem steps_afterMagic (hB : BytesAre B s) (hst : s.st = .start) (hr : s.run = true) (hl : 4 ≤ s.len.toNat)
    (hm : parsedMagic B = Config.magicConst) : ParserSteps 1 s (afterMagic B s) := by
  have h : parserStep s = .next (afterMagic B s) := by
    rw [parserStep, hst]
    exact (execChkmagic_bytesAre hB hl).trans (by rw [if_pos hm])
  exact .cons hr h (.zero _)

section

variable (hB : BytesAre B s) (hr : s.run = true) (h1 : ParserSteps 1 s (afterMagic B s))

include hB hr h1

theorem steps_afterFlg (hl : 5 ≤ s.len.toNat) : ParserSteps 2 s (afterFlg B s) :=
  h1.snoc hr (execRdflg_bytesAre hB hl)

theorem steps_afterBd (hl : 6 ≤ s.len.toNat) : ParserSteps 3 s (afterBd B s) :=
  (steps_afterFlg hB hr h1 (by omega)).snoc hr (execRdbd_bytesAre hB hl)

theorem steps_afterCsize (hl : hcOff (parsedCs B) ≤ s.len.toNat) : ParserSteps 4 s (afterCsize B s) := by
  have hsix : 6 ≤ hcOff (parsedCs B) := by rw [hcOff]; omega
  exact (steps_afterBd hB hr h1 (hsix.trans hl)).snoc hr (execBrcsize_bytesAre hB hl)

theorem steps_afterChecksum (hl : hcOff (parsedCs B) + 1 ≤ s.len.toNat) : ParserSteps 5 s (afterChecksum B s) := by
  obtain ⟨_, _, _, hrun⟩ := afterCsize_inputs B s
  exact (steps_afterCsize hB hr h1 (by omega)).snoc (hrun.trans hr) (execRdhc_bytesAre hB hl)

theorem steps_afterBlock (hl : endOff (parsedCs B) ≤ s.len.toNat) : ParserSteps 6 s (afterBlock B s) := by
  obtain ⟨_, _, _, hrun⟩ := afterCsize_inputs B s
  have hend : hcOff (parsedCs B) + 1 ≤ endOff (parsedCs B) := by rw [endOff]; omega
  exact (steps_afterChecksum hB hr h1 (hend.trans hl)).snoc (hrun.trans hr) (execRdblk_bytesAre hB hl)

end

/-! ### The table -/

/-- Lines 6 to 12 of the table, where BRCSIZE has been passed, over the states named above. -/
def parseTail (B : Nat → Byte) (s : State) : Nat × State :=
  if parsedCs B = false ∧ s.len.toNat = 6 then (5, raise .truncatedHeader (afterBd B s))
  else if parsedCs B = true ∧ s.len.toNat = 14 then (5, raise .truncatedHeader (afterCsize B s))
  else if parsedCs B = false ∧ s.len.toNat ≤ 10 then (6, raise .truncatedHeader (afterChecksum B s))
  else if parsedCs B = true ∧ s.len.toNat ≤ 18 then (6, raise .truncatedHeader (afterChecksum B s))
  else if (parsedStored B != reportingByte (parsedHash B)) = true ∧ s.strict = true then
    (7, raise .checksumMismatch { fullReport B s with warnHc := true })
  else (7, { fullReport B s with
    st := .done, warnHc := parsedStored B != reportingByte (parsedHash B), run := false })

/-- The table over the states named above. -/
theorem parseEnd_eq (B : Nat → Byte) (s : State) : parseEnd B s =
    if s.len.toNat < 4 then (1, raise .truncatedHeader s)
    else if parsedMagic B ≠ Config.magicConst then
      (1, raise .invalidMagic { s with magic := parsedMagic B, nread := 4 })
    else if s.len.toNat = 4 then (2, raise .truncatedHeader (afterMagic B s))
    else if s.len.toNat = 5 then (3, raise .truncatedHeader (afterFlg B s))
    else if parsedCs B = true ∧ s.len.toNat ≤ 13 then (4, raise .truncatedHeader (afterBd B s))
    else parseTail B s := by
  unfold parseEnd parseTail afterChecksum afterCsize
  cases parsedCs B with
  | false => rfl
  | true => rfl

/-- The run from `s` takes `p.1` steps and ends in `p.2`. -/
def EndsAs (s : State) (p : Nat × State) : Prop := ParserSteps p.1 s p.2 ∧ p.2.run = false

/-- R206: a run whose next micro-operation raises an error is over. -/
theorem endsAs_raise {n : Nat} {u t : State} {e : ErrCode} (hs : ParserSteps n s u) (hr : u.run = true)
    (h : parserStep u = .next (raise e t)) : EndsAs s (n + 1, raise e t) :=
  ⟨hs.snoc hr h, rfl⟩

/-- Lines 10 to 12 agree on the report: what RDBLK leaves is `fullReport`, when no content size stood there before. -/
theorem afterBlock_eq (hv : s.csizeValid = false) (hc : s.csize = 0) :
    afterBlock B s = { fullReport B s with st := .dataBlockRead } := by
  have habsent (u : State) : afterBlock B { u with csizeValid := false, csize := 0 } =
      { fullReport B { u with csizeValid := false, csize := 0 } with st := .dataBlockRead } := by
    unfold afterBlock afterChecksum afterCsize fullReport
    cases parsedCs B with
    | false => rfl
    | true => rfl
  have hs : { s with csizeValid := false, csize := 0 } = s := by rw [← hv, ← hc]
  have h := habsent s
  rwa [hs] at h

/-- R160: FINISH over the full report is lines 10 to 12. -/
theorem execFinish_fullReport (B : Nat → Byte) (s : State) :
    execFinish { fullReport B s with st := .dataBlockRead } = .next
      (if (parsedStored B != reportingByte (parsedHash B)) = true ∧ s.strict = true then
        raise .checksumMismatch { fullReport B s with warnHc := true }
      else { fullReport B s with
        st := .done, warnHc := parsedStored B != reportingByte (parsedHash B), run := false }) := by
  by_cases hm : (parsedStored B != reportingByte (parsedHash B)) = true ∧ s.strict = true
  · have hfatal : checksumFatal { fullReport B s with st := .dataBlockRead } = true := (Bool.and_eq_true _ _).mpr hm
    have hdiff : checksumDiffers { fullReport B s with st := .dataBlockRead } = true := hm.1
    rw [if_pos hm, execFinish_of_fatal hfatal, hdiff]
    rfl
  · have hfatal : checksumFatal { fullReport B s with st := .dataBlockRead } = false :=
      Bool.eq_false_iff.2 fun h => hm ((Bool.and_eq_true _ _).mp h)
    rw [if_neg hm, execFinish_of_not_fatal hfatal]
    rfl

/-- Lines 6 to 12: past BRCSIZE a run is cut off before the stored checksum or before the end of the data-block field,
or it reads the whole header and FINISH ends it. -/
theorem endsAs_parseTail (hB : BytesAre B s) (hr : s.run = true) (hv : s.csizeValid = false) (hc : s.csize = 0)
    (h1 : ParserSteps 1 s (afterMagic B s)) (hl : hcOff (parsedCs B) ≤ s.len.toNat) : EndsAs s (parseTail B s) := by
  obtain ⟨hcs, hlen, _, hrun⟩ := afterCsize_inputs B s
  have hcs5 : (afterChecksum B s).flgCSize = parsedCs B := hcs
  have hlen5 : (afterChecksum B s).len = s.len := hlen
  have hrun : (afterCsize B s).run = true := hrun.trans hr
  have h4 := steps_afterCsize hB hr h1 hl
  unfold parseTail
  refine iteInduction (motive := EndsAs s) (fun h => ?_) fun h6 => ?_
  · have hsame : raise .truncatedHeader (afterBd B s) = raise .truncatedHeader (afterCsize B s) := by
      rw [afterCsize_absent B s h.1]; rfl
    rw [hsame]
    exact endsAs_raise h4 hrun (execRdhc_short (by rw [hcs, hlen, h.1, h.2]; decide))
  refine iteInduction (motive := EndsAs s) (fun h => ?_) fun h7 => ?_
  · exact endsAs_raise h4 hrun (execRdhc_short (by rw [hcs, hlen, h.1, h.2]; decide))
  have h5 : ParserSteps 5 s (afterChecksum B s) := by
    refine steps_afterChecksum hB hr h1 (Nat.lt_of_le_of_ne hl fun heq => ?_)
    cases hp : parsedCs B with
    | false => exact h6 ⟨hp, by rw [← heq, hp]; rfl⟩
    | true => exact h7 ⟨hp, by rw [← heq, hp]; rfl⟩
  refine iteInduction (motive := EndsAs s) (fun h => ?_) fun h8 => ?_
  · exact endsAs_raise h5 hrun (execRdblk_short (by rw [hcs5, hlen5, h.1]; exact Nat.lt_succ_of_le h.2))
  refine iteInduction (motive := EndsAs s) (fun h => ?_) fun h9 => ?_
  · exact endsAs_raise h5 hrun (execRdblk_short (by rw [hcs5, hlen5, h.1]; exact Nat.lt_succ_of_le h.2))
  have hall : endOff (parsedCs B) ≤ s.len.toNat := by
    by_contra hlt
    cases hp : parsedCs B with
    | false => exact h8 ⟨hp, by rw [hp] at hlt; exact Nat.le_of_lt_succ (Nat.lt_of_not_le hlt)⟩
    | true => exact h9 ⟨hp, by rw [hp] at hlt; exact Nat.le_of_lt_succ (Nat.lt_of_not_le hlt)⟩
  have hblock := steps_afterBlock hB hr h1 hall
  rw [afterBlock_eq hv hc] at hblock
  have hfinish := execFinish_fullReport B s
  refine iteInduction (motive := EndsAs s) (fun h => ?_) fun h => ?_
  · rw [if_pos h] at hfinish
    exact endsAs_raise hblock hr hfinish
  · rw [if_neg h] at hfinish
    exact ⟨hblock.snoc hr hfinish, rfl⟩

/-- R168: from a state as START leaves it the run takes the steps the table gives and ends as it says. -/
theorem endsAs_parseEnd (hs : Cleared s) (hr : s.run = true) (hB : BytesAre B s) : EndsAs s (parseEnd B s) := by
  obtain ⟨hst, _, _, hvalid, _, _, _, _, hcsize, _⟩ := hs
  rw [parseEnd_eq]
  refine iteInduction (motive := EndsAs s) (fun hl => ?_) fun hl => ?_
  · exact endsAs_raise (.zero _) hr (by rw [parserStep, hst]; exact execChkmagic_short hl)
  have hl4 : 4 ≤ s.len.toNat := Nat.le_of_not_lt hl
  refine iteInduction (motive := EndsAs s) (fun hm => ?_) fun hm => ?_
  · refine endsAs_raise (.zero _) hr ?_
    rw [parserStep, hst]
    exact (execChkmagic_bytesAre hB hl4).trans (congrArg _ (if_neg hm))
  have h1 := steps_afterMagic hB hst hr hl4 (Classical.not_not.1 hm)
  refine iteInduction (motive := EndsAs s) (fun hl => ?_) fun hl => ?_
  · exact endsAs_raise h1 hr (execRdflg_short (Nat.lt_succ_of_le hl.le))
  refine iteInduction (motive := EndsAs s) (fun hl => ?_) fun hl => ?_
  · exact endsAs_raise (steps_afterFlg hB hr h1 hl.ge) hr (execRdbd_short (Nat.lt_succ_of_le hl.le))
  have hl6 : 6 ≤ s.len.toNat := by omega
  refine iteInduction (motive := EndsAs s) (fun hl => ?_) fun hl => ?_
  · obtain ⟨hcs, hl⟩ := hl
    exact endsAs_raise (steps_afterBd hB hr h1 hl6) hr (execBrcsize_short hcs (Nat.lt_succ_of_le hl))
  refine endsAs_parseTail hB hr hvalid hcsize h1 ?_
  cases hcs : parsedCs B with
  | false => exact hl6
  | true => exact Nat.lt_of_not_le fun hle => hl ⟨hcs, hle⟩

end

end Sys2Proof
end

section
/-! Whole runs (45_finish_and_sequencing.md R168, R170): steps of the machine, and header moves (log 7). -/

namespace Sys2Proof

open Machine Safety Claims

/-- Settles O44: with nothing pending the machine's steps are the parser's, and those are the table's. -/
theorem runFollowsTheParseTable : Obligations.RunFollowsTheParseTable := by
  intro s B hs hr hp hB
  obtain ⟨hsteps, _⟩ := endsAs_parseEnd hs hr hB
  refine ⟨(runSteps_eq_runParser _ hp).trans hsteps.runParser_eq, fun k hk => ?_⟩
  obtain ⟨u, hu, hrun⟩ := hsteps.running_before hk
  exact ⟨u, (runSteps_eq_runParser k hp).trans hu, hrun⟩

/-! ### The table does not look outside the block -/

/-- The block of `s` with the buffer and the host's side of `x`. -/
def Machine.State.withOutside (s x : State) : State :=
  { s with buf := x.buf, pending := x.pending, replies := x.replies }

/-- R168: the table's lines are told apart by `B`, `LEN` and `STRICT`, and none of them writes outside the block. -/
theorem parseEnd_withOutside (B : Nat → Byte) (s x : State) :
    parseEnd B (s.withOutside x) = Prod.map id (State.withOutside · x) (parseEnd B s) := by
  rw [parseEnd_eq, parseEnd_eq]
  unfold parseTail afterChecksum afterCsize
  simp only [apply_ite (Prod.map id (State.withOutside · x))]
  cases parsedCs B with
  | false => rfl
  | true => rfl

/-! ### A header move from rest -/

/-- A run ends in one state only. -/
theorem ParserSteps.end_unique {n m : Nat} {s t u : State} (ht : ParserSteps n s t) (htr : t.run = false)
    (hu : ParserSteps m s u) (hur : u.run = false) : t = u := by
  have h := (ht.runParser_of_le htr (Nat.le_max_left n m)).symm.trans (hu.runParser_of_le hur (Nat.le_max_right n m))
  injection h

/-- Where a run of the bytes `bs` from rest in `s` ends: the block as the table says, the bytes in the buffer. -/
def headerEnd (B : Nat → Byte) (bs : List Byte) (strict : Bool) (s : State) : State :=
  (parseEnd B (started strict (lenOf bs.length))).2.withOutside { s with buf := writeBytes s.buf 0 bs }

section

variable {B : Nat → Byte} {bs : List Byte} {strict : Bool} {s : State} {a : Nat}

theorem readByte_headerEnd_inside (h : a < bs.length) : readByte (headerEnd B bs strict s).buf a = bs[a]? := by
  have hread := readByte_writeBytes_inside (m := s.buf) (a := 0) h
  rwa [Nat.zero_add] at hread

theorem readByte_headerEnd_outside (h : bs.length ≤ a) :
    readByte (headerEnd B bs strict s).buf a = readByte s.buf a :=
  readByte_writeBytes_outside (.inr (by rwa [Nat.zero_add]))

end

section

variable {B : Nat → Byte} {bs : List Byte} (hB : ∀ i, i < bs.length → bs[i]? = some (B i))

include hB

/-- R236: after the fill and the LEN write, the bytes a run can read are those given. -/
theorem bytesAre_prepareRun (strict : Bool) (s : State) : BytesAre B (prepareRun bs strict s) := by
  intro a ha
  obtain ⟨hlen, hread⟩ := readByte_prepareRun ha
  rw [hread, hB a hlen]

/-- R168: the run after the preparation of R236 takes the table's steps to `headerEnd`. -/
theorem prepareRun_endsAs (strict : Bool) (s : State) : EndsAs (prepareRun bs strict s)
    ((parseEnd B (started strict (lenOf bs.length))).1, headerEnd B bs strict s) := by
  have hcleared : Cleared (prepareRun bs strict s) :=
    ⟨rfl, rfl, rfl, rfl, rfl, rfl, rfl, rfl, rfl, rfl, rfl, rfl, rfl⟩
  have hend := endsAs_parseEnd hcleared rfl (bytesAre_prepareRun hB strict s)
  have htable : parseEnd B (prepareRun bs strict s) =
      ((parseEnd B (started strict (lenOf bs.length))).1, headerEnd B bs strict s) :=
    parseEnd_withOutside B (started strict (lenOf bs.length)) { s with buf := writeBytes s.buf 0 bs }
  rwa [htable] at hend

theorem headerEnd_run (strict : Bool) (s : State) : (headerEnd B bs strict s).run = false :=
  (prepareRun_endsAs hB strict s).2

/-- R20: `LEN` and `STRICT` are as the run was started with. -/
theorem headerEnd_inputs (strict : Bool) (s : State) :
    (headerEnd B bs strict s).len = lenOf bs.length ∧ (headerEnd B bs strict s).strict = strict := by
  obtain ⟨hsteps, _⟩ := prepareRun_endsAs hB strict s
  obtain ⟨hlen, hstrict, _⟩ := hsteps.outside
  exact ⟨hlen, hstrict⟩

theorem parseRun_rest {s : State} (hr : s.run = false) (strict : Bool) :
    parseRun bs strict s = .next (headerEnd B bs strict s) := by
  obtain ⟨hsteps, hend⟩ := prepareRun_endsAs hB strict s
  obtain ⟨n, u, hn, hsteps', hu⟩ := exists_parserSteps_seven (bufReady_prepareRun bs strict s) fun _ => rfl
  have heq : headerEnd B bs strict s = u := hsteps.end_unique hend hsteps' hu
  rw [parseRun, runParser_rest hr, heq]
  exact hsteps'.runParser_of_le hu hn

end

/-- Settles O39: a header move is `parseRun`, which from rest ends in `headerEnd`. -/
theorem headerMoveFollowsTheTable : Obligations.HeaderMoveFollowsTheTable := by
  intro s bs r B hp hr hB
  refine ⟨headerEnd B bs s.strict (popMove s), (step_header hp).trans (parseRun_rest hB (s := popMove s) hr s.strict),
    congrArg List.tail hp, rfl, rfl, fun i => readByte_headerEnd_inside, fun b => readByte_headerEnd_outside⟩

/-! ### Parsing twice -/

/-- The bytes of `bs` by offset, 0 beyond its end. -/
def bytesOf (bs : List Byte) (i : Nat) : Byte := bs.getD i 0

theorem getElem?_eq_bytesOf (bs : List Byte) (i : Nat) (hi : i < bs.length) : bs[i]? = some (bytesOf bs i) := by
  rw [bytesOf, List.getD_eq_getElem bs 0 hi, List.getElem?_eq_getElem hi]

/-- R170: running the same bytes again with the same strictness changes neither the block nor the buffer. -/
theorem parseRun_twice {bs : List Byte} {s t : State} (hr : s.run = false) (h : parseRun bs s.strict s = .next t) :
    ∃ u, parseRun bs t.strict t = .next u ∧ blockOf u = blockOf t ∧ ∀ a, readByte u.buf a = readByte t.buf a := by
  have hB := getElem?_eq_bytesOf bs
  rw [parseRun_rest hB hr] at h
  injection h with h
  subst h
  obtain ⟨_, hstrict⟩ := headerEnd_inputs hB s.strict s
  refine ⟨_, parseRun_rest hB (headerEnd_run hB s.strict s) _, ?_, fun a => ?_⟩
  · rw [hstrict]
    rfl
  · by_cases ha : a < bs.length
    · rw [readByte_headerEnd_inside ha, readByte_headerEnd_inside ha]
    · exact readByte_headerEnd_outside (Nat.le_of_not_lt ha)

/-- Settles O40: both header formats are `parseRun` of their bytes with `STRICT` as it stands. -/
theorem parsingTwiceChangesNothing : Obligations.ParsingTwiceChangesNothing :=
  ⟨fun _ _ _ => parseRun_twice, fun _ _ _ _ => parseRun_twice⟩

/-! ### A header's report -/

section

variable {B : Nat → Byte} {s : State}

/-- R168, lines 10 to 12: with the whole header below `LEN` the table answers the full report, ended as FINISH
decides. -/
theorem parseEnd_whole (hm : parsedMagic B = Config.magicConst) (hl : endOff (parsedCs B) ≤ s.len.toNat) :
    parseEnd B s = if (parsedStored B != reportingByte (parsedHash B)) = true ∧ s.strict = true then
      (7, raise .checksumMismatch { fullReport B s with warnHc := true })
    else (7, { fullReport B s with
      st := .done, warnHc := parsedStored B != reportingByte (parsedHash B), run := false }) := by
  have hend := endOff_eq (parsedCs B)
  have h11 : 11 ≤ s.len.toNat := by split at hend <;> omega
  have h19 : parsedCs B = true → 19 ≤ s.len.toNat := fun hcs => by rwa [hcs] at hl
  have hshort {n : Nat} (hn : n < 11) : ¬(parsedCs B = false ∧ s.len.toNat ≤ n) := by omega
  have hlong {n : Nat} (hn : n < 19) : ¬(parsedCs B = true ∧ s.len.toNat ≤ n) := fun ⟨hcs, h⟩ => by
    have := h19 hcs
    omega
  rw [parseEnd_eq, if_neg (by omega), if_neg (not_not_intro hm), if_neg (by omega), if_neg (by omega),
    if_neg (hlong (by decide)), parseTail, if_neg (fun h => hshort (n := 6) (by decide) ⟨h.1, h.2.le⟩),
    if_neg (fun h => hlong (n := 14) (by decide) ⟨h.1, h.2.le⟩), if_neg (hshort (by decide)),
    if_neg (hlong (by decide))]

/-- R160: a fatal mismatch ends the run as `EndsByChecksum` says. -/
theorem endsByChecksum_fatal {t : State} (hwarn : t.warnHc = (t.hcStored != t.hash.extractLsb' 8 8))
    (h : t.warnHc = true ∧ t.strict = true) (hst : t.st = .error) (herr : t.err = .checksumMismatch) :
    EndsByChecksum t :=
  ⟨hwarn, by rw [if_pos h]; exact ⟨hst, herr⟩⟩

/-- R160: so does every other comparison. -/
theorem endsByChecksum_done {t : State} (hwarn : t.warnHc = (t.hcStored != t.hash.extractLsb' 8 8))
    (h : ¬(t.warnHc = true ∧ t.strict = true)) (hst : t.st = .done) (herr : t.err = .none) : EndsByChecksum t :=
  ⟨hwarn, by rw [if_neg h]; exact ⟨hst, herr⟩⟩

/-- R160: the run that read the whole header keeps the full report and ends by the checksum comparison. -/
theorem parseEnd_whole_report (hm : parsedMagic B = Config.magicConst) (hl : endOff (parsedCs B) ≤ s.len.toNat)
    (herr : s.err = .none) : ∃ t, (parseEnd B s).2 = t ∧ EndsByChecksum t ∧
      t = { fullReport B s with st := t.st, err := t.err, warnHc := t.warnHc, run := false } := by
  refine ⟨_, rfl, ?_⟩
  rw [parseEnd_whole hm hl]
  by_cases h : (parsedStored B != reportingByte (parsedHash B)) = true ∧ s.strict = true
  · rw [if_pos h]
    exact ⟨endsByChecksum_fatal h.1.symm ⟨rfl, h.2⟩ rfl rfl, rfl⟩
  · rw [if_neg h]
    exact ⟨endsByChecksum_done rfl h rfl herr, rfl⟩

end

/-- R36: the views of a report whose descriptor bytes are those of the fields `f`. -/
theorem reportsFrame_of_bytes {f : FrameFields} {cs : Bool} {c : BitVec 64} {t : State}
    (hmagic : t.magic = Config.magicConst) (hflg : t.flg = flgByte f.flags cs) (hbd : t.bd = bdByte f.bd)
    (hvalid : t.csizeValid = cs) (hcsize : t.csize = c) (hstored : t.hcStored = f.headerChecksum)
    (hflag : t.blkFlag = f.blockFlag) (hsize : t.blkSize = f.blockSize) (hrun : t.run = false) :
    ReportsFrame f cs c t := by
  have hflags : flgFields t.flg = f.flags := by rw [hflg, flgFields_flgByte]
  have hparts : bdFields t.bd = f.bd := by rw [hbd, bdFields_bdByte]
  exact ⟨hmagic, congrArg FlgFields.version hflags, congrArg FlgFields.blockIndependence hflags,
    congrArg FlgFields.blockChecksumPresent hflags, by rw [State.flgCSize, hflg, contentSizeBit_flgByte],
    congrArg FlgFields.contentChecksumPresent hflags, congrArg FlgFields.reserved hflags,
    congrArg FlgFields.dictionaryIdPresent hflags, congrArg BdFields.bit7 hparts,
    congrArg BdFields.blockMaxSizeCode hparts, congrArg BdFields.low hparts, hvalid, hcsize, hstored, hflag, hsize,
    hrun⟩

/-- R168: the run of a whole header reports its fields, in either format. -/
theorem headerEnd_reports {B : Nat → Byte} {bs : List Byte} {f : FrameFields} {cs : Bool} {c : BitVec 64}
    (strict : Bool) (s : State) (hm : parsedMagic B = Config.magicConst) (h4 : B 4 = flgByte f.flags cs)
    (h5 : B 5 = bdByte f.bd) (hcsize : (if cs then parsedCsize B else 0) = c)
    (hstored : parsedStored B = f.headerChecksum) (hblock : parsedBlock B = blockWord f.blockFlag f.blockSize)
    (hl : endOff cs ≤ (lenOf bs.length).toNat) :
    ReportsFrame f cs c (headerEnd B bs strict s) ∧ EndsByChecksum (headerEnd B bs strict s)
      ∧ (headerEnd B bs strict s).nread = (if cs then 19 else 11) ∧ (headerEnd B bs strict s).flg = B 4
      ∧ (headerEnd B bs strict s).bd = B 5 ∧ (headerEnd B bs strict s).hash = parsedHash B := by
  have hcs : parsedCs B = cs := (congrArg contentSizeBit h4).trans (contentSizeBit_flgByte f.flags cs)
  obtain ⟨t, ht, hchecksum, hreport⟩ := parseEnd_whole_report (s := started strict (lenOf bs.length)) hm
    (by rw [hcs]; exact hl) rfl
  have hvalid : t.csizeValid = parsedCs B := congrArg State.csizeValid hreport
  have hvalue : t.csize = if parsedCs B then parsedCsize B else 0 := congrArg State.csize hreport
  have hnread : t.nread = if parsedCs B then 19 else 11 := congrArg State.nread hreport
  have hflag : t.blkFlag = (parsedBlock B).getLsbD 31 := congrArg State.blkFlag hreport
  have hsize : t.blkSize = (parsedBlock B).extractLsb' 0 31 := congrArg State.blkSize hreport
  rw [hcs] at hvalid hvalue hnread
  rw [hblock] at hflag hsize
  unfold headerEnd
  rw [ht]
  exact ⟨reportsFrame_of_bytes ((congrArg State.magic hreport).trans hm) ((congrArg State.flg hreport).trans h4)
      ((congrArg State.bd hreport).trans h5) hvalid (hvalue.trans hcsize)
      ((congrArg State.hcStored hreport).trans hstored)
      (hflag.trans (blockFlagOf_blockWord ..)) (hsize.trans (blockSizeOf_blockWord ..)) (congrArg State.run hreport),
    hchecksum, hnread, congrArg State.flg hreport, congrArg State.bd hreport, congrArg State.hash hreport⟩

theorem length_frameSBytes (f : FrameFields) : (frameSBytes f).length = 11 := rfl

theorem length_frameLBytes (f : FrameFields) (c : BitVec 64) : (frameLBytes f c).length = 19 := rfl

/-- Settles O36: `headerEnd_reports` over the eleven bytes. -/
theorem frameSRunsToItsReport : Obligations.FrameSRunsToItsReport := by
  intro f s hr
  have hB := getElem?_eq_bytesOf (frameSBytes f)
  generalize hbytes : bytesOf (frameSBytes f) = B at hB
  have hm : parsedMagic B = Config.magicConst := by
    rw [parsedMagic, ← leWord_four, ← hbytes]
    exact leWord_leBytes_toNat Config.magicConst
  have h4 : B 4 = flgByte f.flags false := by rw [← hbytes]; rfl
  have hcs : parsedCs B = false := (congrArg contentSizeBit h4).trans (contentSizeBit_flgByte f.flags false)
  have hblock : parsedBlock B = blockWord f.blockFlag f.blockSize := by
    rw [parsedBlock, hcs, ← leWord_leBytes_toNat (blockWord f.blockFlag f.blockSize), ← hbytes]
    exact (leWord_four ..).symm
  obtain ⟨hreport, hends, hnread, hflg, hbd, hhash⟩ := headerEnd_reports (bs := frameSBytes f) (cs := false) (c := 0)
    s.strict s hm h4 (by rw [← hbytes]; rfl) rfl (by rw [parsedStored, hcs, ← hbytes]; rfl) hblock
    (by rw [length_frameSBytes]; decide)
  obtain ⟨hlen, hstrict⟩ := headerEnd_inputs hB s.strict s
  refine ⟨_, parseRun_rest hB hr s.strict, hreport, hends, hnread, ?_, hlen, hstrict, rfl, rfl, fun bs henc a ha => ?_,
    fun a ha => readByte_headerEnd_outside ha⟩
  · rw [hhash, hflg, hbd, parsedHash, hcs]
    rfl
  · obtain rfl := Code.frame.inj henc
    exact readByte_headerEnd_inside ha

/-- Settles O37: `headerEnd_reports` over the nineteen bytes, eight of them the content size. -/
theorem frameLRunsToItsReport : Obligations.FrameLRunsToItsReport := by
  intro f c s hr
  have hB := getElem?_eq_bytesOf (frameLBytes f c)
  generalize hbytes : bytesOf (frameLBytes f c) = B at hB
  have hm : parsedMagic B = Config.magicConst := by
    rw [parsedMagic, ← leWord_four, ← hbytes]
    exact leWord_leBytes_toNat Config.magicConst
  have h4 : B 4 = flgByte f.flags true := by rw [← hbytes]; rfl
  have hcs : parsedCs B = true := (congrArg contentSizeBit h4).trans (contentSizeBit_flgByte f.flags true)
  have hblock : parsedBlock B = blockWord f.blockFlag f.blockSize := by
    rw [parsedBlock, hcs, ← leWord_leBytes_toNat (blockWord f.blockFlag f.blockSize), ← hbytes]
    exact (leWord_four ..).symm
  have hspan : [B 6, B 7, B 8, B 9, B 10, B 11, B 12, B 13] = leBytes 8 c.toNat := by rw [← hbytes]; rfl
  have hcsize : parsedCsize B = c := by
    rw [parsedCsize, ← leDword_eight, hspan, leDword_leBytes]
  obtain ⟨hreport, hends, hnread, hflg, hbd, hhash⟩ := headerEnd_reports (bs := frameLBytes f c) (cs := true) (c := c)
    s.strict s hm h4 (by rw [← hbytes]; rfl) hcsize (by rw [parsedStored, hcs, ← hbytes]; rfl) hblock
    (by rw [length_frameLBytes]; decide)
  obtain ⟨hlen, hstrict⟩ := headerEnd_inputs hB s.strict s
  refine ⟨_, parseRun_rest hB hr s.strict, hreport, hends, hnread, ?_, hlen, hstrict, rfl, rfl, fun bs henc a ha => ?_,
    fun a ha => readByte_headerEnd_outside ha⟩
  · rw [hhash, hflg, hbd, parsedHash, hcs, ← hspan]
    rfl
  · obtain rfl := Code.frame.inj henc
    exact readByte_headerEnd_inside ha

end Sys2Proof
end

section
/-! What a run depends on (45_finish_and_sequencing.md R170, 10_state.md R24): the same steps over other inputs that
agree below `min(LEN, 19)`. -/

namespace Sys2Proof

open Machine Safety Claims

/-- The block of `s`, over `LEN`, the buffer and the host's side of `x`. -/
def Machine.State.onInputs (s x : State) : State :=
  { s with len := x.len, buf := x.buf, pending := x.pending, replies := x.replies }

/-- The inputs of `s` and `x` are the same to a run: equal lengths or both of at least 19 (R24), and the same bytes
below. -/
def SameInputs (s x : State) : Prop :=
  (s.len = x.len ∨ 19 ≤ s.len.toNat ∧ 19 ≤ x.len.toNat) ∧
    ∀ a, a < min s.len.toNat 19 → ∃ v, readByte s.buf a = some v ∧ readByte x.buf a = some v

section

variable {s t x : State}

theorem SameInputs.bufReady (h : SameInputs s x) : BufReady s := fun a ha => by
  obtain ⟨v, hv, _⟩ := h.2 a ha
  rw [hv]
  rfl

/-- R24: a range of the window is below both lengths or below neither. -/
theorem SameInputs.lt_iff (h : SameInputs s x) {e : Nat} (he : e ≤ 19) : x.len.toNat < e ↔ s.len.toNat < e := by
  obtain hlen | ⟨hs, hx⟩ := h.1
  · rw [hlen]
  · exact iff_of_false (Nat.not_lt.2 (he.trans hx)) (Nat.not_lt.2 (he.trans hs))

theorem SameInputs.readBytes_eq (h : SameInputs s x) {a n : Nat} (hl : a + n ≤ s.len.toNat) (he : a + n ≤ 19) :
    readBytes x.buf a n = readBytes s.buf a n := by
  refine readBytes_congr fun b _ hb => ?_
  obtain ⟨v, hs, hx⟩ := h.2 b (lt_min (hb.trans_le hl) (hb.trans_le he))
  rw [hs, hx]

/-- R202: a guarded read of the window goes the same way over the other inputs when what follows it does. -/
theorem readField_onInputs (hin : SameInputs s x) {a n : Nat} (he : a + n ≤ 19)
    {k k' : List Byte → Host.Outcome State Fault Refusal} (h : readField s a n k = .next t)
    (hk : a + n ≤ s.len.toNat → ∀ bs u, k bs = .next u → k' bs = .next (u.onInputs x)) :
    readField (s.onInputs x) a n k' = .next (t.onInputs x) := by
  obtain ⟨hl, rfl⟩ | ⟨hl, bs, hb, hn⟩ := readField_next h
  · exact readField_short ((hin.lt_iff he).2 hl)
  · have hlx : a + n ≤ x.len.toNat := Nat.le_of_not_lt fun hlt => Nat.not_lt.2 hl ((hin.lt_iff he).1 hlt)
    have hbx : readBytes x.buf a n = some bs := (hin.readBytes_eq hl he).trans hb
    exact (readField_some (s := s.onInputs x) hlx hbx).trans (hk hl bs t hn)

theorem execChkmagic_onInputs (hin : SameInputs s x) (h : execChkmagic s = .next t) :
    execChkmagic (s.onInputs x) = .next (t.onInputs x) := by
  refine readField_onInputs hin (by decide) h fun _ bs u hu => ?_
  injection hu with hu
  subst hu
  by_cases hm : leWord bs ≠ Config.magicConst
  · simp only [if_pos hm]; rfl
  · simp only [if_neg hm]; rfl

theorem execBrcsize_onInputs (hin : SameInputs s x) (h : execBrcsize s = .next t) :
    execBrcsize (s.onInputs x) = .next (t.onInputs x) := by
  cases hc : s.flgCSize with
  | false =>
    rw [execBrcsize_absent hc] at h
    injection h with h
    subst h
    exact execBrcsize_absent (s := s.onInputs x) hc
  | true =>
    rw [execBrcsize_present hc] at h
    rw [execBrcsize_present (s := s.onInputs x) hc]
    exact readField_onInputs hin (by decide) h fun _ bs u hu => by injection hu with hu; subst hu; rfl

theorem execRdhc_onInputs (hin : SameInputs s x) (h : execRdhc s = .next t) :
    execRdhc (s.onInputs x) = .next (t.onInputs x) := by
  have he : hcOff s.flgCSize + 1 ≤ 19 := by cases s.flgCSize <;> decide
  have hspan : 4 + hashLen s.flgCSize ≤ hcOff s.flgCSize + 1 := by cases s.flgCSize <;> decide
  refine readField_onInputs hin he h fun hl bs u hu => ?_
  obtain ⟨p, hp, hn⟩ := withBytes_next hu
  have hpx : readBytes x.buf 4 (hashLen s.flgCSize) = some p :=
    (hin.readBytes_eq (hspan.trans hl) (hspan.trans he)).trans hp
  refine (withBytes_some (s := s.onInputs x) hpx).trans ?_
  injection hn with hn
  subst hn
  rfl

theorem execFinish_onInputs (h : execFinish s = .next t) : execFinish (s.onInputs x) = .next (t.onInputs x) := by
  injection h with h
  subst h
  have hfatal : checksumFatal (s.onInputs x) = checksumFatal s := rfl
  unfold execFinish
  rw [hfatal]
  by_cases hc : checksumFatal s = true
  · simp only [if_pos hc]; rfl
  · simp only [if_neg hc]; rfl

/-- R170: a parser step is the same over any inputs that agree with its own. -/
theorem parserStep_onInputs (hin : SameInputs s x) (h : parserStep s = .next t) :
    parserStep (s.onInputs x) = .next (t.onInputs x) := by
  have hst : (s.onInputs x).st = s.st := rfl
  cases hs : s.st <;> simp only [parserStep, hs, hst] at h ⊢
  case start => exact execChkmagic_onInputs hin h
  case magicRead =>
    exact readField_onInputs hin (by decide) h fun _ bs u hu => by injection hu with hu; subst hu; rfl
  case flagsRead =>
    exact readField_onInputs hin (by decide) h fun _ bs u hu => by injection hu with hu; subst hu; rfl
  case blockDescRead => exact execBrcsize_onInputs hin h
  case contentSizeBranch => exact execRdhc_onInputs hin h
  case checksumRead =>
    have he : blkOff s.flgCSize + 4 ≤ 19 := by cases s.flgCSize <;> decide
    exact readField_onInputs hin he h fun _ bs u hu => by injection hu with hu; subst hu; rfl
  case dataBlockRead => exact execFinish_onInputs h
  case done => cases h
  case error => cases h

theorem SameInputs.of_parserStep (hin : SameInputs s x) (h : parserStep s = .next t) : SameInputs t x := by
  obtain ⟨hlen, _, _, _, hbuf⟩ := parserStep_outside h
  unfold SameInputs
  rwa [hlen, hbuf]

/-- R170: so is a run, step for step. -/
theorem runParser_onInputs (k : Nat) (hin : SameInputs s x) (hlive : s.run = true → terminal s.st = false) :
    ∃ t, runParser k s = .next t ∧ runParser k (s.onInputs x) = .next (t.onInputs x) := by
  induction k generalizing s with
  | zero => exact ⟨s, rfl, rfl⟩
  | succ k ih =>
    by_cases hr : s.run = true
    · obtain ⟨t, ht⟩ := parserStep_answers hin.bufReady (hlive hr)
      rw [runParser_step hr ht, runParser_step (s := s.onInputs x) hr (parserStep_onInputs hin ht)]
      exact ih (hin.of_parserStep ht) fun htr => (parserStep_progress hr (hlive hr) ht htr).1
    · have hr : s.run = false := by simpa using hr
      exact ⟨s, runParser_rest hr _, runParser_rest (s := s.onInputs x) hr _⟩

end

/-- Settles O46: the second run is the first over the second's inputs, since START leaves nothing else of either. -/
theorem runDependsOnlyOnItsInputs : Obligations.RunDependsOnlyOnItsInputs := by
  intro s1 s2 strict hr1 hr2 hp1 hp2 hlen hbytes
  refine ⟨_, _, execStart_rest hr1 strict, execStart_rest hr2 strict, fun k => ?_⟩
  have hin : SameInputs (beginRun strict s1) s2 := ⟨hlen, hbytes⟩
  obtain ⟨t, ht1, ht2⟩ := runParser_onInputs k hin fun _ => rfl
  exact ⟨t, t.onInputs s2, (runSteps_eq_runParser (s := beginRun strict s1) k hp1).trans ht1,
    (runSteps_eq_runParser (s := beginRun strict s2) k hp2).trans ht2, rfl⟩

end Sys2Proof
end

section
/-! The host's wait and PARSE as a whole (30_encoding.md R88, 70_reset_and_hazards.md R236; log 23). -/

namespace Sys2Proof

open Machine Safety Claims

/-! ### Several moves in a row -/

theorem runSteps_add (j k : Nat) {s u : State} (h : runSteps j s = .next u) :
    runSteps (j + k) s = runSteps k u := by
  induction j generalizing s with
  | zero =>
    injection h with h
    rw [h, Nat.zero_add]
  | succ j ih =>
    rw [Nat.add_right_comm]
    cases hs : step s with
    | next t => rw [runSteps_next hs] at h ⊢; exact ih h
    | fault f => rw [runSteps_fault hs] at h; cases h
    | refused f => rw [runSteps_refused hs] at h; cases h

theorem underHost_of_pending {s : State} {p : List Move} (h : s.pending = p) : s.underHost p s.replies = s := by
  rw [← h]
  rfl

/-- R88, R171: a wait reads STATUS with `RUN = 1` before each step of the run, and once more after its end. -/
theorem runSteps_wait {n : Nat} {s t : State} (hs : ParserSteps n s t) (ht : t.run = false) (r : List Move)
    (q : List Word) : ∃ polls, polls.length = n ∧ (∀ w ∈ polls, w.getLsbD 4 = true) ∧
      runSteps (2 * n + 1) (s.underHost (.pollStatus :: r) q) =
        .next (t.underHost r (t.statusReg :: (polls ++ q))) := by
  induction hs generalizing q with
  | zero s =>
    have hpoll : step (s.underHost (.pollStatus :: r) q) = .next (s.underHost r (s.statusReg :: q)) :=
      step_poll_rest rfl ht
    exact ⟨[], rfl, nofun, runSteps_next hpoll 0⟩
  | @cons n s u t hr h _ ih =>
    obtain ⟨polls, hlen, hbits, hrun⟩ := ih ht (s.statusReg :: q)
    have hpoll : step (s.underHost (.pollStatus :: r) q) =
        .next (s.underHost (.parserTurn :: .pollStatus :: r) (s.statusReg :: q)) := step_poll_running rfl hr
    have hparser := parserStep_host (.pollStatus :: r) (s.statusReg :: q) h
    have hturn : step (s.underHost (.parserTurn :: .pollStatus :: r) (s.statusReg :: q)) =
        .next (u.underHost (.pollStatus :: r) (s.statusReg :: q)) := (step_turn rfl).trans ((if_pos hr).trans hparser)
    refine ⟨polls ++ [s.statusReg], by simp [hlen], fun w hw => ?_, ?_⟩
    · obtain hw | hw := List.mem_append.1 hw
      · exact hbits w hw
      · rw [List.mem_singleton.1 hw]
        exact (status_bit4 s).trans hr
    · rw [show 2 * (n + 1) + 1 = 2 * n + 1 + 1 + 1 by omega, runSteps_next hpoll, runSteps_next hturn, hrun,
        List.append_assoc, List.singleton_append]

/-- Settles O55: within the invariants the run ends by R171, and `runSteps_wait` follows it. -/
theorem waitEndsWithTheRun : Obligations.WaitEndsWithTheRun := by
  intro s r hs hb hp
  obtain ⟨n, u, hn, hsteps, hu⟩ := exists_parserSteps_seven hb hs.runLive
  obtain ⟨polls, _, _, hrun⟩ := runSteps_wait hsteps hu r s.replies
  rw [underHost_of_pending hp] at hrun
  obtain ⟨_, _, _, _, hbuf⟩ := hsteps.outside
  exact ⟨_, _, u, hrun, hsteps.runParser_of_le hu hn, hu, rfl, rfl, hbuf, polls, rfl⟩

/-- R40: a register is made of the block's elements, not of the host's side. -/
theorem regValue_underHost (s : State) (p : List Move) (q : List Word) (n : Nat) :
    (s.underHost p q).regValue n = s.regValue n := by
  match n with
  | 0 | 1 | 2 | 3 | 4 | 5 | 6 | 7 | 8 | 9 | 10 => rfl
  | _ + 11 => rfl

/-- R184: reads in a row give the host the registers' values, the last one on top. -/
theorem runSteps_reads (ns : List Nat) (s : State) (r : List Move) (q : List Word) :
    runSteps ns.length (s.underHost (ns.map .read ++ r) q) =
      .next (s.underHost r ((ns.map s.regValue).reverse ++ q)) := by
  induction ns generalizing q with
  | nil => rfl
  | cons n ns ih =>
    have hread : step (s.underHost (.read n :: (ns.map .read ++ r)) q) =
        .next (s.underHost (ns.map .read ++ r) (s.regValue n :: q)) :=
      (step_read rfl).trans (by rw [← regValue_underHost s (ns.map .read ++ r) q n]; rfl)
    rw [List.length_cons, List.map_cons, List.cons_append, runSteps_next hread, ih]
    simp

section

variable {s : State} {r : List Move}

/-- R236 step 2: at rest a pending fill is made. -/
theorem step_fill_rest {a : Nat} {bs : List Byte} (hp : s.pending = .fill a bs :: r) (hr : s.run = false) :
    step s = .next { s with buf := writeBytes s.buf a bs, pending := r } := by
  rw [step_fill hp, popMove_of_pending hp]
  exact fillBuffer_of_window fun h => by cases hr.symm.trans h

/-- R236 step 3: at rest a pending LEN write is made. -/
theorem step_writeLen_rest {v : Word} (hp : s.pending = .write 1 v :: r) (hr : s.run = false) :
    step s = .next { s with len := v, pending := r } := by
  rw [step_write hp, popMove_of_pending hp]
  exact execWrreg_len (s := { s with pending := r }) hr v

/-- R236 step 5: at rest a pending CTRL write of START's word begins a run. -/
theorem step_writeStart_rest {strict : Bool} (hp : s.pending = .write 0 (startWord strict) :: r) (hr : s.run = false) :
    step s = .next (beginRun strict { s with pending := r }) := by
  rw [step_write hp, popMove_of_pending hp, decodeWrite_startWord]
  exact execStart_rest (s := { s with pending := r }) hr strict

/-- R236 steps 2 to 5: fill, LEN and START leave what `prepareRun` says. -/
theorem runSteps_prepare {bs : List Byte} {strict : Bool}
    (hp : s.pending = .fill 0 bs :: .write 1 (lenOf bs.length) :: .write 0 (startWord strict) :: r)
    (hr : s.run = false) : runSteps 3 s = .next { prepareRun bs strict s with pending := r } := by
  let filled : State := { s with
    buf := writeBytes s.buf 0 bs, pending := .write 1 (lenOf bs.length) :: .write 0 (startWord strict) :: r }
  let sized : State := { filled with len := lenOf bs.length, pending := .write 0 (startWord strict) :: r }
  have hfill : step s = .next filled := step_fill_rest hp hr
  have hlen : step filled = .next sized := step_writeLen_rest rfl hr
  have hstart : step sized = .next { prepareRun bs strict s with pending := r } := step_writeStart_rest rfl hr
  exact (runSteps_next hfill 2).trans ((runSteps_next hlen 1).trans (runSteps_next hstart 0))

end

/-- The registers PARSE reads after its wait (R185, log 23). -/
def reportRegisters : List Nat := [2, 3, 4, 5, 6, 7, 8, 9, 10]

/-- Settles O56: PARSE is replaced by its moves, `runSteps_prepare` makes the first three, `prepareRun_endsAs` gives the
run that `runSteps_wait` follows, and `runSteps_reads` reads the report. -/
theorem parseMoveFollowsTheTable : Obligations.ParseMoveFollowsTheTable := by
  intro s bs strict r B hp hr hB
  obtain ⟨hsteps, hend⟩ := prepareRun_endsAs hB strict s
  have hexpand : step s = .next { s with pending := parseMoves bs strict ++ r } := by
    rw [step_parse hp, popMove_of_pending hp, expandParse, hr]
    rfl
  have hprepare : runSteps 3 { s with pending := parseMoves bs strict ++ r } = .next ((prepareRun bs strict s).underHost
      (.pollStatus :: (reportRegisters.map .read ++ r)) s.replies) := runSteps_prepare rfl hr
  obtain ⟨polls, hlen, hbits, hwait⟩ := runSteps_wait hsteps hend (reportRegisters.map .read ++ r) s.replies
  have hreads := runSteps_reads reportRegisters (headerEnd B bs strict s) r
    ((headerEnd B bs strict s).statusReg :: (polls ++ s.replies))
  refine ⟨_, _, polls, (runSteps_next hexpand _).trans ((runSteps_add 3 _ hprepare).trans
    ((runSteps_add _ _ hwait).trans hreads)), rfl, hend, rfl, hlen, hbits, (status_bit4 _).trans hend, ?_,
    fun i => readByte_headerEnd_inside (B := B) (strict := strict),
    fun b => readByte_headerEnd_outside (B := B) (strict := strict)⟩
  rw [funext (regValue_underHost _ _ _), List.append_assoc, List.append_assoc]
  rfl

end Sys2Proof
end
